-- ==== Sys2Proof/Word.lean ====
section
/-! DEFINITION. The Word type (00_scope.md R6, R7): 32-bit values, and the conversion from integers.

A Word's two readings are `BitVec.toNat` (the spec's `unsigned`) and `BitVec.toInt` (the spec's `signed`).
Slices and concatenation are `BitVec.extractLsb'` and `++`, most significant part first. -/

namespace Sys2Proof

/-- A 32-bit Word: every register, cell, slot and the pc (10_state.md R20 to R24). -/
abbrev Word := BitVec 32

/-- A register index, the unsigned reading of a 5-bit field (00_scope.md R11). -/
abbrev RegIdx := Fin 32

/-- The 32-bit Word whose signed reading is `n`, for `n` in `[-2^31, 2^31 - 1]` (00_scope.md R7). -/
def word32 (n : Int) : Word := BitVec.ofInt 32 n

end Sys2Proof
end

