-- ==== Sys2Proof/Syntax.lean ====
section
/-! DEFINITION. The nine instructions (30_encoding.md R68), one constructor per row of the opcode table,
with the operands of the assembly text (R72). An immediate is the integer its field is read as. -/

namespace Sys2Proof

/-- The closed list of nine instructions (00_scope.md R1, 30_encoding.md R68). -/
inductive Instr where
  /-- `ADD $rd,$rs,$rt` (41_alu.md R111). -/
  | add (rd rs rt : RegIdx)
  /-- `ADDI $rt,$rs,imm`, a signed 16-bit immediate (41_alu.md R112). -/
  | addi (rt rs : RegIdx) (imm : Int)
  /-- `AND $rd,$rs,$rt` (41_alu.md R113). -/
  | and (rd rs rt : RegIdx)
  /-- `ANDI $rt,$rs,imm`, the 16 field bits as a number; widened by ANDI_EXT (41_alu.md R114). -/
  | andi (rt rs : RegIdx) (imm : Nat)
  /-- `LW $rt,off($rs)`, a signed 16-bit displacement (42_loadstore.md R121). -/
  | lw (rt : RegIdx) (off : Int) (rs : RegIdx)
  /-- `SW $rt,off($rs)`, a signed 16-bit displacement (42_loadstore.md R122). -/
  | sw (rt : RegIdx) (off : Int) (rs : RegIdx)
  /-- `BEQ $rs,$rt,imm`, a signed count of instructions (43_control.md R131). -/
  | beq (rs rt : RegIdx) (imm : Int)
  /-- `J idx`, the 26 field bits as a number (43_control.md R132). -/
  | j (idx : Nat)
  /-- `JR $rs` (43_control.md R133). -/
  | jr (rs : RegIdx)
  deriving DecidableEq, Repr

end Sys2Proof
end

