-- ==== Sys2Proof/WellFormed.lean ====
section
/-! DEFINITION. Which instructions have an encoding: each immediate fits its field (30_encoding.md R65,
R66, R67, R72). Register indices are in range by their type. -/

namespace Sys2Proof

/-- The signed 16-bit range of ADDI, LW, SW and BEQ (30_encoding.md R65). -/
def fitsSigned16 (n : Int) : Bool := decide (-32768 ≤ n ∧ n ≤ 32767)

/-- The 16 field bits of ANDI (30_encoding.md R72). -/
def fitsUnsigned16 (n : Nat) : Bool := decide (n < 65536)

/-- The 26 field bits of J (30_encoding.md R61). -/
def fitsUnsigned26 (n : Nat) : Bool := decide (n < 67108864)

/-- Every operand fits its field, so the instruction has a word. -/
def Instr.wellFormed : Instr → Bool
  | .add _ _ _ => true
  | .addi _ _ imm => fitsSigned16 imm
  | .and _ _ _ => true
  | .andi _ _ imm => fitsUnsigned16 imm
  | .lw _ off _ => fitsSigned16 off
  | .sw _ off _ => fitsSigned16 off
  | .beq _ _ imm => fitsSigned16 imm
  | .j idx => fitsUnsigned26 idx
  | .jr _ => true

end Sys2Proof
end

