-- ==== Sys2Proof/Decode.lean ====
section
/-! DEFINITION. The decoder (30_encoding.md R61 to R68) and the encoder, written from the same field
table. Decoding is total: a word that is none of the nine instructions gives `none` (R69). -/

namespace Sys2Proof

/-! ### The field extractors (R61) -/

/-- `instr[31:26]`. -/
def opcodeField (w : Word) : BitVec 6 := w.extractLsb' 26 6

/-- `instr[25:21]`, a register index. -/
def rsField (w : Word) : RegIdx := (w.extractLsb' 21 5).toFin

/-- `instr[20:16]`, a register index. -/
def rtField (w : Word) : RegIdx := (w.extractLsb' 16 5).toFin

/-- `instr[15:11]`, a register index. -/
def rdField (w : Word) : RegIdx := (w.extractLsb' 11 5).toFin

/-- `instr[10:6]`, "never used by any instruction" (R61, R64). -/
def shamtField (w : Word) : BitVec 5 := w.extractLsb' 6 5

/-- `instr[5:0]`. -/
def functField (w : Word) : BitVec 6 := w.extractLsb' 0 6

/-- `instr[15:0]`. -/
def immediateField (w : Word) : BitVec 16 := w.extractLsb' 0 16

/-- `instr[25:0]`. -/
def pseudoAddressField (w : Word) : BitVec 26 := w.extractLsb' 0 26

/-! ### The decoder -/

/-- The dispatch of EX (30_encoding.md R63, 40_pipeline.md R90): `op` is the opcode the ID/EX latch carries
and `w` its instruction word; `funct` is examined for opcode 0 only, and unused fields not at all (R64). -/
def decodeWith (op : BitVec 6) (w : Word) : Option Instr :=
  if op = 0#6 then
    if functField w = 32#6 then some (.add (rdField w) (rsField w) (rtField w))
    else if functField w = 36#6 then some (.and (rdField w) (rsField w) (rtField w))
    else if functField w = 8#6 then some (.jr (rsField w))
    else none
  else if op = 8#6 then some (.addi (rtField w) (rsField w) (immediateField w).toInt)
  else if op = 12#6 then some (.andi (rtField w) (rsField w) (immediateField w).toNat)
  else if op = 35#6 then some (.lw (rtField w) (immediateField w).toInt (rsField w))
  else if op = 43#6 then some (.sw (rtField w) (immediateField w).toInt (rsField w))
  else if op = 4#6 then some (.beq (rsField w) (rtField w) (immediateField w).toInt)
  else if op = 2#6 then some (.j (pseudoAddressField w).toNat)
  else none

/-- The instruction a 32-bit word decodes to; `none` for an unrecognized word (30_encoding.md R63, R69). -/
def decodeWord (w : Word) : Option Instr := decodeWith (opcodeField w) w

/-- The host's entry to the decoder: the low `nbits` bits of `w`, the bits above them zero. An instruction
is one 32-bit word (30_encoding.md R60), so a longer row has no decoding. -/
def decodeTableWord (nbits w : Nat) : Option Instr :=
  if nbits ≤ 32 then decodeWord (BitVec.ofNat 32 (w % 2 ^ nbits)) else none

/-! ### The encoder -/

/-- The 5-bit field of a register index. -/
def regBits (r : RegIdx) : BitVec 5 := BitVec.ofNat 5 r.val

/-- Format R (30_encoding.md R62) with `shamt` = 0: opcode 0, rs, rt, rd, shamt, funct. -/
def wordR (rs rt rd : RegIdx) (funct : BitVec 6) : Word :=
  0#6 ++ regBits rs ++ regBits rt ++ regBits rd ++ 0#5 ++ funct

/-- Format I (30_encoding.md R62): opcode, rs, rt, immediate. -/
def wordI (op : BitVec 6) (rs rt : RegIdx) (imm : BitVec 16) : Word :=
  op ++ regBits rs ++ regBits rt ++ imm

/-- Format J (30_encoding.md R62): opcode, pseudo_address. -/
def wordJ (op : BitVec 6) (idx : BitVec 26) : Word := op ++ idx

/-- The word of an instruction (30_encoding.md R68); unused fields are written 0 (R72). -/
def encode : Instr → Word
  | .add rd rs rt => wordR rs rt rd 32#6
  | .addi rt rs imm => wordI 8#6 rs rt (BitVec.ofInt 16 imm)
  | .and rd rs rt => wordR rs rt rd 36#6
  | .andi rt rs imm => wordI 12#6 rs rt (BitVec.ofNat 16 imm)
  | .lw rt off rs => wordI 35#6 rs rt (BitVec.ofInt 16 off)
  | .sw rt off rs => wordI 43#6 rs rt (BitVec.ofInt 16 off)
  | .beq rs rt imm => wordI 4#6 rs rt (BitVec.ofInt 16 imm)
  | .j idx => wordJ 2#6 (BitVec.ofNat 26 idx)
  | .jr rs => wordR rs 0 0 8#6

/-! ### The opcode map as data (30_encoding.md R68) -/

/-- One row of the opcode map: a word is this instruction's when `word & mask = pattern`. -/
structure OpcodeRow where
  mnemonic : String
  pattern  : Word
  mask     : Word
  deriving DecidableEq, Repr

/-- The rows of 30_encoding.md R68. -/
def opcodeMap : List OpcodeRow :=
  [ { mnemonic := "ADD",  pattern := 0x00000020#32, mask := 0xFC00003F#32 },
    { mnemonic := "ADDI", pattern := 0x20000000#32, mask := 0xFC000000#32 },
    { mnemonic := "AND",  pattern := 0x00000024#32, mask := 0xFC00003F#32 },
    { mnemonic := "ANDI", pattern := 0x30000000#32, mask := 0xFC000000#32 },
    { mnemonic := "LW",   pattern := 0x8C000000#32, mask := 0xFC000000#32 },
    { mnemonic := "SW",   pattern := 0xAC000000#32, mask := 0xFC000000#32 },
    { mnemonic := "BEQ",  pattern := 0x10000000#32, mask := 0xFC000000#32 },
    { mnemonic := "J",    pattern := 0x08000000#32, mask := 0xFC000000#32 },
    { mnemonic := "JR",   pattern := 0x00000008#32, mask := 0xFC00003F#32 } ]

/-- A word is one of the row's instruction. -/
def OpcodeRow.matchesWord (r : OpcodeRow) (w : Word) : Bool := decide (w &&& r.mask = r.pattern)

/-- The mnemonic of an instruction, as the opcode map spells it. -/
def Instr.mnemonic : Instr → String
  | .add _ _ _ => "ADD"
  | .addi _ _ _ => "ADDI"
  | .and _ _ _ => "AND"
  | .andi _ _ _ => "ANDI"
  | .lw _ _ _ => "LW"
  | .sw _ _ _ => "SW"
  | .beq _ _ _ => "BEQ"
  | .j _ => "J"
  | .jr _ => "JR"

/-- The bits of a word that its instruction reads; the others are ignored (30_encoding.md R64): `shamt` of
ADD and AND; `rt`, `rd` and `shamt` of JR. -/
def Instr.usedBits : Instr → Word
  | .add _ _ _ => 0xFFFFF83F#32
  | .and _ _ _ => 0xFFFFF83F#32
  | .jr _ => 0xFFE0003F#32
  | .addi _ _ _ => 0xFFFFFFFF#32
  | .andi _ _ _ => 0xFFFFFFFF#32
  | .lw _ _ _ => 0xFFFFFFFF#32
  | .sw _ _ _ => 0xFFFFFFFF#32
  | .beq _ _ _ => 0xFFFFFFFF#32
  | .j _ => 0xFFFFFFFF#32

end Sys2Proof
end

