-- ==== Sys2Proof/Config.lean ====
section
/-! DEFINITION. The fixed parameters (00_scope.md R4), the open parameters (R5) and the free values
(93_implementation_defined.md U1, U14) of this hardware. -/

namespace Sys2Proof

/-- DMEM_CELLS, the number of cells of data memory (00_scope.md R4). -/
def dataCells : Nat := 500

/-- IMEM_SLOTS, the number of slots of the instruction store (00_scope.md R4). -/
def slotCount : Nat := 200

/-- PC_RESET, the initial address (00_scope.md R4). -/
def pcReset : Word := 0

/-- What a cell or slot holds after reset, and so what an unlisted one reads as (10_state.md R35). -/
def blankCell : Word := 0

/-- J_LIMIT (00_scope.md R5): the bound of J's target check. -/
inductive JLimit where
  /-- 200: the reported behaviour, a byte address against the word capacity (43_control.md R132). -/
  | preserve
  /-- 800: the fix. -/
  | fix
  deriving DecidableEq, Repr

/-- ANDI_EXT (00_scope.md R5): how ANDI widens its immediate (30_encoding.md R66). -/
inductive AndiExt where
  | zero
  | sign
  deriving DecidableEq, Repr

/-- STEP_GROUP (00_scope.md R5): scheduler cycles per host `step()` (40_pipeline.md R100). -/
inductive StepGroup where
  | one
  | five
  deriving DecidableEq, Repr

/-- The open parameters, "a model takes them as configuration arguments" (00_scope.md R5). -/
structure Config where
  jLimit    : JLimit
  andiExt   : AndiExt
  stepGroup : StepGroup
  deriving DecidableEq, Repr

namespace Config

/-- The default of every open parameter (00_scope.md R5). -/
def default : Config := { jLimit := .preserve, andiExt := .zero, stepGroup := .one }

/-- The free value of the `opcode` field of a latch that carries none (10_state.md R26, U14). -/
opaque freeOpcode : Nat → BitVec 6

/-- The free value of the `register_target` field of a latch that carries none (10_state.md R26, U14). -/
opaque freeTarget : Nat → Option RegIdx

/-- The free value of the `memory_target` field of a latch that carries none (10_state.md R26, U14). -/
opaque freeAddress : Nat → Word

/-- The free value of the `write_val` field of a latch that carries none (10_state.md R26, U14). At the EX
of a LW this is LW_EX_VALUE, the one free value a program can read (42_loadstore.md R121, U1). -/
opaque freeWriteVal : Nat → Word

end Config

end Sys2Proof
end

