-- ==== Sys2Proof/Machine/State.lean ====
section
/-! DEFINITION. The machine's state as plain data (10_state.md), its reset value (R35), and the reasons
for which a step of the model can stop. -/

namespace Sys2Proof.Machine

/-- A memory of 32-bit cells: the list of (index, cell) of the cells that do not hold `blankCell`, indices
strictly rising. The spec has no bytes, "A model must not introduce bytes" (20_memory.md R44). DEDUCED
(log 7). -/
abbrev Memory := List (Nat × Word)

/-- The five execution faults of the hardware (60_exceptions.md R140, R149). -/
inductive FaultKind where
  /-- "unrecognized opcode/funct" (R144). -/
  | unsupportedOperation
  /-- "attempted write to the zero register" (R145). -/
  | registerZeroWrite
  /-- A checked sum left the signed range (R146). -/
  | arithmeticOverflow
  /-- A data address or JR target is "not a multiple of 4" (R147). -/
  | unalignedAddress
  /-- A data address, branch or jump target, or pc is out of range (R148). -/
  | addressOutOfBounds
  deriving DecidableEq, Repr

/-- Machine status (10_state.md R30): `faulted kind info` from a fault until `reset()`. -/
inductive Status where
  | ok
  | faulted (kind : FaultKind) (info : Word)
  deriving DecidableEq, Repr

/-- A pipeline latch (10_state.md R25). `registerTarget = none` is the sentinel NONE (R27). -/
structure Latch where
  valid           : Bool
  opcode          : BitVec 6
  registerTarget  : Option RegIdx
  memoryTarget    : Word
  writeVal        : Word
  instructionWord : Word
  deriving DecidableEq, Repr

/-- A non-empty scheduler window: the stages lo, ..., hi (10_state.md R29). -/
structure Window where
  lo : Nat
  hi : Nat
  deriving DecidableEq, Repr

/-- All state of the machine (10_state.md), then the open parameters and the model's own counter. -/
structure State where
  /-- The register file (R20). -/
  x      : Vector Word 32
  /-- The program counter (R22). -/
  pc     : Word
  /-- Data memory, indexed by the address itself (R23, 20_memory.md R41). -/
  dmem   : Memory
  /-- The instruction store, indexed by slot (R24). -/
  imem   : Memory
  /-- IF to ID (R25). -/
  ifid   : Latch
  /-- ID to EX (R25). -/
  idex   : Latch
  /-- EX to MEM, and the source of the forwarding path (R25, 40_pipeline.md R91). -/
  exmem  : Latch
  /-- MEM to WB (R25). -/
  memwb  : Latch
  /-- The scheduler window; `none` is EMPTY (R29). -/
  window : Option Window
  /-- Machine status (R30). -/
  status : Status
  /-- The open parameters of 00_scope.md R5: configuration, changed by nothing. -/
  cfg    : Config
  /-- The model's own: how many latch writes have drawn free values so far. -/
  drawn  : Nat
  deriving DecidableEq, Repr

/-- Where the model itself stops. Each case is one the spec gives no meaning and no run from reset reaches;
a hardware fault is never one of these (it is a next state whose status is `faulted`). DEDUCED (log 9). -/
inductive Fault where
  /-- Raised by MEM when the EX/MEM latch of a LW or SW names an address that EX's checks would have
  refused (00_scope.md R12: MemRead and MemWrite are defined only for checked addresses). SAFE. -/
  | uncheckedDataAddress (address : Word)
  /-- Raised by IF and the look-ahead when pc is not a multiple of 4 (00_scope.md R15: k / 4 is applied
  only to multiples of 4; 20_memory.md R47). SAFE. -/
  | misalignedPc (pc : Word)
  deriving DecidableEq, Repr

/-- An instruction the model gives no meaning. -/
inductive Refusal where
  /-- Raised by an arm of `exec` that is not written yet; no arm raises it. SAFE. -/
  | notModelled (mnemonic : String)
  deriving DecidableEq, Repr

/-- A latch after `reset()` (10_state.md R35). DESIGN CHOICE, D4 (log 14). -/
def Latch.reset : Latch :=
  { valid := false, opcode := 0, registerTarget := none, memoryTarget := 0, writeVal := 0,
    instructionWord := 0 }

/-- The machine after `reset()`, which is also the power-on state (10_state.md R35, 70_reset_and_hazards.md
R170, R172), with the default parameters (00_scope.md R5). DESIGN CHOICE, D4, D12, D15 (log 2,
log 13, log 14, log 23); `drawn` starts at 0, DESIGN CHOICE (log 3). -/
def State.reset : State :=
  { x := Vector.replicate 32 0, pc := pcReset, dmem := [], imem := [],
    ifid := Latch.reset, idex := Latch.reset, exmem := Latch.reset, memwb := Latch.reset,
    window := none, status := .ok, cfg := Config.default, drawn := 0 }

end Sys2Proof.Machine
end

