-- ==== Sys2Proof/Machine/Ops.lean ====
section
/-! DEFINITION. The operations over memory, registers and latches, and the entry into a fault, that the
stages and the instruction meanings share. -/

namespace Sys2Proof.Machine

/-! ### Memory -/

/-- The canonical form: indices strictly rising, and no listed cell blank. -/
abbrev Memory.wf (m : Memory) : Prop :=
  m.Pairwise (fun a b => a.1 < b.1) ∧ ∀ c ∈ m, c.2 ≠ blankCell

/-- Every listed cell exists: its index is below `n`. -/
abbrev Memory.within (n : Nat) (m : Memory) : Prop := ∀ c ∈ m, c.1 < n

/-- The cell at index `a`; an unlisted cell is blank. -/
def Memory.read : Memory → Nat → Word
  | [], _ => blankCell
  | (b, u) :: m, a => if a = b then u else Memory.read m a

/-- The memory without a listing of index `a`. -/
def Memory.removeCell (m : Memory) (a : Nat) : Memory := m.filter (fun c => c.1 != a)

/-- List `v` at index `a`, before the first larger index. -/
def Memory.insertCell : Memory → Nat → Word → Memory
  | [], a, v => [(a, v)]
  | (b, u) :: m, a, v => if a < b then (a, v) :: (b, u) :: m else (b, u) :: Memory.insertCell m a v

/-- Put `v` into the cell at index `a`, keeping the canonical form: a blank cell is not listed. -/
def Memory.write (m : Memory) (a : Nat) (v : Word) : Memory :=
  if v = blankCell then m.removeCell a else (m.removeCell a).insertCell a v

/-- `a[1:0] = 00` (20_memory.md R46). -/
def isAligned (a : Word) : Bool := decide (a.extractLsb' 0 2 = 0#2)

/-- The address is in `[0, 500)`, signed (42_loadstore.md R120). -/
def inDataMemory (a : Word) : Bool := decide (0 ≤ a.toInt ∧ a.toInt < (dataCells : Int))

/-- An address that passed the checks of 42_loadstore.md R120 (20_memory.md R41). -/
def legalDataAddress (a : Word) : Bool := isAligned a && inDataMemory a

/-- The cell index an address selects: the address itself (20_memory.md R41). DESIGN CHOICE, D6 (log 8). -/
def cellIndex (a : Word) : Nat := a.toInt.toNat

/-- The byte addresses of the instruction store are 0 to 799 (20_memory.md R43, R48). -/
def inInstructionStore (pc : Word) : Bool := decide (0 ≤ pc.toInt ∧ pc.toInt < 4 * (slotCount : Int))

/-- The slot pc selects (20_memory.md R43). -/
def slotIndex (pc : Word) : Nat := (pc.toInt / 4).toNat

/-- What a read of the instruction store at pc gives. -/
inductive SlotRead where
  | word (w : Word)
  | outOfBounds
  | misaligned
  deriving DecidableEq, Repr

/-- `InstrRead(signed(pc) / 4)` (20_memory.md R43); out of range raises: DESIGN CHOICE, D5 (log 16). -/
def readSlot (s : State) : SlotRead :=
  if isAligned s.pc then
    if inInstructionStore s.pc then .word (s.imem.read (slotIndex s.pc)) else .outOfBounds
  else .misaligned

/-! ### Registers -/

/-- WB's register write: register 0 and the sentinel are skipped (40_pipeline.md R94). -/
def writeRegister (t : Option RegIdx) (v : Word) (s : State) : State :=
  match t with
  | none => s
  | some r => if r = 0 then s else { s with x := s.x.set r.val v }

/-! ### Latches -/

/-- A latch as its producing stage writes it for the word `w`, before the other fields the stage gives are
put in: valid, and each such field the `n`-th free value (10_state.md R26, U14). DESIGN CHOICE (log 3). -/
def freeLatch (n : Nat) (w : Word) : Latch :=
  { valid := true, opcode := Config.freeOpcode n, registerTarget := Config.freeTarget n,
    memoryTarget := Config.freeAddress n, writeVal := Config.freeWriteVal n, instructionWord := w }

/-- Seeding's invalidation (40_pipeline.md R82). -/
def Latch.invalidate (l : Latch) : Latch := { l with valid := false, registerTarget := none }

/-- The single EX/MEM assignment every handler ends with (40_pipeline.md R92). `none` for the address or
the value is the spec's "unspecified": a free value. -/
def writeExmem (target : Option RegIdx) (address value : Option Word) (s : State) : State :=
  { s with
    exmem :=
      { valid := true, opcode := s.idex.opcode, registerTarget := target,
        memoryTarget := address.getD (Config.freeAddress s.drawn),
        writeVal := value.getD (Config.freeWriteVal s.drawn),
        instructionWord := s.idex.instructionWord }
    drawn := s.drawn + 1 }

/-! ### Faults -/

/-- `raise kind(info)` (00_scope.md R13, 60_exceptions.md R153): the status records the fault and nothing
else changes; the cycle ends there because every later part of it tests the status. DEDUCED (log 1). -/
def raise (kind : FaultKind) (info : Word) (s : State) : State := { s with status := .faulted kind info }

/-- A raise by EX records the instruction word (60_exceptions.md R150). DESIGN CHOICE, D23 (log 26). -/
def raiseInEx (kind : FaultKind) (s : State) : State := raise kind s.idex.instructionWord s

/-- The only way out of a fault is `reset()` (60_exceptions.md R155, 70_reset_and_hazards.md R170): all
state to its reset value. The parameters are not state and stay; the counter of free values goes on.
DESIGN CHOICE (log 27). -/
def hostReset (s : State) : State := { State.reset with cfg := s.cfg, drawn := s.drawn }

/-! ### Sequencing -/

/-- Go on with the next state, or stop where the first part stopped. -/
def andThen (o : Host.Outcome State Fault Refusal) (f : State → Host.Outcome State Fault Refusal) :
    Host.Outcome State Fault Refusal :=
  match o with
  | .next s => f s
  | .fault r => .fault r
  | .refused r => .refused r

end Sys2Proof.Machine
end

