-- ==== Sys2Proof/Machine/Flags.lean ====
section
/-! DEFINITION. The machine has no flags (10_state.md R31); its one condition is the overflow of the
checked signed addition (41_alu.md R110), defined here. -/

namespace Sys2Proof.Machine

/-- "overflow occurs iff both operands share a sign and the result's sign differs from theirs"
(41_alu.md R110), on the sum modulo 2^32. -/
def addOverflows (a b : Word) : Bool := a.msb == b.msb && (a + b).msb != a.msb

/-- `add32(a, b)` (41_alu.md R110): `none` is overflow. -/
def add32 (a b : Word) : Option Word := if addOverflows a b then none else some (a + b)

end Sys2Proof.Machine
end

