-- ==== Sys2Proof/Machine/Operands.lean ====
section
/-! DEFINITION. Every operand form: the forwarded register read, the immediates, the effective address
with its checks, and the targets of the control transfers. -/

namespace Sys2Proof.Machine

/-- The source-operand read `fwd(i)` (40_pipeline.md R91): the pending EX/MEM value when that latch is
valid and names register i, else the register file. -/
def fwd (s : State) (i : RegIdx) : Word :=
  if s.exmem.valid && s.exmem.registerTarget == some i then s.exmem.writeVal else s.x[i.val]

/-- ANDI's immediate, the 16 field bits widened by ANDI_EXT (30_encoding.md R66). DESIGN CHOICE, D7 (log 2). -/
def andiOperand (ext : AndiExt) (imm : Nat) : Word :=
  match ext with
  | .zero => (BitVec.ofNat 16 imm).zeroExtend 32
  | .sign => (BitVec.ofNat 16 imm).signExtend 32

/-- The effective address of LW and SW, or the first failing check: overflow, alignment, bounds
(42_loadstore.md R120). DESIGN CHOICE, D11 and D13 (log 19, log 20). -/
def effectiveAddress (s : State) (rs : RegIdx) (off : Int) : Except FaultKind Word :=
  match add32 (fwd s rs) (word32 off) with
  | none => .error .arithmeticOverflow
  | some a =>
    if isAligned a then
      if inDataMemory a then .ok a else .error .addressOutOfBounds
    else .error .unalignedAddress

/-- BEQ's target as an exact integer: the pc of this moment plus 4 times the immediate
(43_control.md R131). -/
def branchTarget (pc : Word) (imm : Int) : Int := pc.toInt + 4 * imm

/-- J_LIMIT as a number (00_scope.md R5). -/
def jumpLimit : JLimit → Nat
  | .preserve => 200
  | .fix => 800

/-- J's target `pc[31:28] ++ instr[25:0] ++ 00` (30_encoding.md R67). -/
def jumpTarget (pc : Word) (idx : Nat) : Word := pc.extractLsb' 28 4 ++ BitVec.ofNat 26 idx ++ 0#2

end Sys2Proof.Machine
end

