-- ==== Sys2Proof/Machine/Alu.lean ====
section
/-! DEFINITION. The EX stage of ADD, ADDI, AND and ANDI (41_alu.md R111 to R114). -/

namespace Sys2Proof.Machine

/-- The common end of an ALU instruction: `RegisterZeroWrite` comes first (60_exceptions.md R151), then
overflow (`none`), else the result waits in EX/MEM for its destination. DESIGN CHOICE, D11 (log 19). -/
def finishAlu (dest : RegIdx) (result : Option Word) (s : State) : Host.Outcome State Fault Refusal :=
  if dest = 0 then .next (raiseInEx .registerZeroWrite s)
  else match result with
    | none => .next (raiseInEx .arithmeticOverflow s)
    | some v => .next (writeExmem (some dest) none (some v) s)

/-- ADD, "rd = rs + rt (signed)" (41_alu.md R111). -/
def execAdd (rd rs rt : RegIdx) (s : State) : Host.Outcome State Fault Refusal :=
  finishAlu rd (add32 (fwd s rs) (fwd s rt)) s

/-- ADDI, "rt = rs + immediate (signed)" (41_alu.md R112). -/
def execAddi (rt rs : RegIdx) (imm : Int) (s : State) : Host.Outcome State Fault Refusal :=
  finishAlu rt (add32 (fwd s rs) (word32 imm)) s

/-- AND, "rd = rs & rt" (41_alu.md R113). -/
def execAnd (rd rs rt : RegIdx) (s : State) : Host.Outcome State Fault Refusal :=
  finishAlu rd (some (fwd s rs &&& fwd s rt)) s

/-- ANDI, "rt = rs & immediate" (41_alu.md R114). -/
def execAndi (rt rs : RegIdx) (imm : Nat) (s : State) : Host.Outcome State Fault Refusal :=
  finishAlu rt (some (fwd s rs &&& andiOperand s.cfg.andiExt imm)) s

end Sys2Proof.Machine
end

