-- ==== Sys2Proof/Machine/Control.lean ====
section
/-! DEFINITION. The EX stage of BEQ, J and JR (43_control.md R130 to R133). -/

namespace Sys2Proof.Machine

/-- The end of a control transfer to `t` (40_pipeline.md R92): pc, then EX/MEM with no destination. -/
def transferTo (t : Word) (s : State) : State := writeExmem none none none { s with pc := t }

/-- BEQ (43_control.md R131): the target is computed and checked only when the operands are equal.
DESIGN CHOICE, D9 (log 18). -/
def execBeq (rs rt : RegIdx) (imm : Int) (s : State) : Host.Outcome State Fault Refusal :=
  if fwd s rs = fwd s rt then
    if branchTarget s.pc imm < 4 ∨ 4 * (slotCount : Int) ≤ branchTarget s.pc imm then
      .next (raiseInEx .addressOutOfBounds s)
    else .next (transferTo (word32 (branchTarget s.pc imm)) s)
  else .next (writeExmem none none none s)

/-- J (43_control.md R132): the target is compared, unsigned, with J_LIMIT. DESIGN CHOICE, D8
(log 2, log 25). -/
def execJ (idx : Nat) (s : State) : Host.Outcome State Fault Refusal :=
  if jumpLimit s.cfg.jLimit ≤ (jumpTarget s.pc idx).toNat then .next (raiseInEx .addressOutOfBounds s)
  else .next (transferTo (jumpTarget s.pc idx) s)

/-- JR (43_control.md R133): the target must be a multiple of 4; it is not checked otherwise. DESIGN
CHOICE, D20 (log 25). -/
def execJr (rs : RegIdx) (s : State) : Host.Outcome State Fault Refusal :=
  if isAligned (fwd s rs) then .next (transferTo (fwd s rs) s)
  else .next (raiseInEx .unalignedAddress s)

end Sys2Proof.Machine
end

