-- ==== Sys2Proof/Machine/LoadStore.lean ====
section
/-! DEFINITION. The EX stage of LW and SW (42_loadstore.md R120 to R122). Data memory itself is touched
by the MEM stage one cycle later (`memStage`). -/

namespace Sys2Proof.Machine

/-- LW (42_loadstore.md R121): `RegisterZeroWrite`, then the address checks; the value is unspecified in
EX (LW_EX_VALUE), one draw for each LW: DEDUCED (log 4). -/
def execLw (rt : RegIdx) (off : Int) (rs : RegIdx) (s : State) : Host.Outcome State Fault Refusal :=
  if rt = 0 then .next (raiseInEx .registerZeroWrite s)
  else match effectiveAddress s rs off with
    | .error k => .next (raiseInEx k s)
    | .ok a => .next (writeExmem (some rt) (some a) none s)

/-- SW (42_loadstore.md R122): the address checks, then address and forwarded data into EX/MEM. -/
def execSw (rt : RegIdx) (off : Int) (rs : RegIdx) (s : State) : Host.Outcome State Fault Refusal :=
  match effectiveAddress s rs off with
  | .error k => .next (raiseInEx k s)
  | .ok a => .next (writeExmem none (some a) (some (fwd s rt)) s)

end Sys2Proof.Machine
end

