-- ==== Sys2Proof/Machine/Dispatch.lean ====
section
/-! DEFINITION. One arm per instruction (40_pipeline.md R90): `exec i s` is the EX stage of `i` at `s`,
the state in which WB and MEM of the same cycle have already run. -/

namespace Sys2Proof.Machine

def exec (i : Instr) (s : State) : Host.Outcome State Fault Refusal :=
  match i with
  | .add rd rs rt => Sys2Proof.Machine.execAdd rd rs rt s
  | .addi rt rs imm => Sys2Proof.Machine.execAddi rt rs imm s
  | .and rd rs rt => Sys2Proof.Machine.execAnd rd rs rt s
  | .andi rt rs imm => Sys2Proof.Machine.execAndi rt rs imm s
  | .lw rt off rs => Sys2Proof.Machine.execLw rt off rs s
  | .sw rt off rs => Sys2Proof.Machine.execSw rt off rs s
  | .beq rs rt imm => Sys2Proof.Machine.execBeq rs rt imm s
  | .j idx => Sys2Proof.Machine.execJ idx s
  | .jr rs => Sys2Proof.Machine.execJr rs s

end Sys2Proof.Machine
end

