-- ==== Sys2Proof/Machine/Stages.lean ====
section
/-! DEFINITION. The stage executors other than EX, and the scheduler's look-ahead and window
(40_pipeline.md R82 to R94). -/

namespace Sys2Proof.Machine

/-- WB (40_pipeline.md R94). -/
def wbStage (s : State) : Host.Outcome State Fault Refusal :=
  .next (writeRegister s.memwb.registerTarget s.memwb.writeVal s)

/-- MEM's write of MEM/WB (40_pipeline.md R93); `none` for the value is a free value (10_state.md R26). -/
def writeMemwb (target : Option RegIdx) (value : Option Word) (s : State) : State :=
  { s with
    memwb :=
      { freeLatch s.drawn s.exmem.instructionWord with
        opcode := s.exmem.opcode, registerTarget := target,
        writeVal := value.getD (Config.freeWriteVal s.drawn) }
    drawn := s.drawn + 1 }

/-- MEM (40_pipeline.md R93): load and store are told apart by the latch's opcode, 35 and 43. -/
def memStage (s : State) : Host.Outcome State Fault Refusal :=
  if s.exmem.opcode = 35#6 then
    if legalDataAddress s.exmem.memoryTarget then
      .next (writeMemwb s.exmem.registerTarget
        (some (s.dmem.read (cellIndex s.exmem.memoryTarget))) s)
    else .fault (.uncheckedDataAddress s.exmem.memoryTarget)
  else if s.exmem.opcode = 43#6 then
    if legalDataAddress s.exmem.memoryTarget then
      .next (writeMemwb none none
        { s with dmem := s.dmem.write (cellIndex s.exmem.memoryTarget) s.exmem.writeVal })
    else .fault (.uncheckedDataAddress s.exmem.memoryTarget)
  else .next (writeMemwb s.exmem.registerTarget (some s.exmem.writeVal) s)

/-- ID's write of ID/EX (40_pipeline.md R89): the opcode field and the raw word. -/
def writeIdex (w : Word) (s : State) : State :=
  { s with
    idex := { freeLatch s.drawn w with opcode := opcodeField w }
    drawn := s.drawn + 1 }

/-- ID (40_pipeline.md R89). -/
def idStage (s : State) : Host.Outcome State Fault Refusal :=
  .next (writeIdex s.ifid.instructionWord s)

/-- IF's write of IF/ID (40_pipeline.md R88). -/
def writeIfid (w : Word) (s : State) : State :=
  { s with
    ifid := freeLatch s.drawn w
    drawn := s.drawn + 1 }

/-- IF (40_pipeline.md R88): the slot at pc into IF/ID, then pc advances by 4. -/
def ifStage (s : State) : Host.Outcome State Fault Refusal :=
  match readSlot s with
  | .word w => .next { writeIfid w s with pc := word32 (s.pc.toInt + 4) }
  | .outOfBounds => .next (raise .addressOutOfBounds s.pc s)
  | .misaligned => .fault (.misalignedPc s.pc)

/-- Run a stage if it is in the window and no stage before it has raised (40_pipeline.md R81, R83, R98). -/
def runStage (w : Window) (number : Nat) (stage : State → Host.Outcome State Fault Refusal) (s : State) :
    Host.Outcome State Fault Refusal :=
  if s.status = .ok then
    if w.lo ≤ number ∧ number ≤ w.hi then stage s else .next s
  else .next s

/-- The window `(lo', hi')` with the upper bound advanced, or EMPTY (40_pipeline.md R81 steps 3 and 4). -/
def nextWindow (lo hi : Nat) : Option Window :=
  if min (hi + 1) 5 < lo then none else some { lo := lo, hi := min (hi + 1) 5 }

/-- Step 3 and 4 of the cycle (40_pipeline.md R84, R85, R87): the look-ahead while lo = 1, else the drain,
which is irreversible: DESIGN CHOICE, D3 (log 15). -/
def schedule (w : Window) (s : State) : Host.Outcome State Fault Refusal :=
  if s.status = .ok then
    if w.lo = 1 then
      match readSlot s with
      | .word v => .next { s with window := nextWindow (if v = 0 then 2 else 1) w.hi }
      | .outOfBounds => .next (raise .addressOutOfBounds s.pc s)
      | .misaligned => .fault (.misalignedPc s.pc)
    else .next { s with window := nextWindow (w.lo + 1) w.hi }
  else .next s

/-- Seeding (40_pipeline.md R82): all latches invalidated, the window IF alone. DESIGN CHOICE, D4 (log 14). -/
def seed (s : State) : State :=
  { s with
    ifid := s.ifid.invalidate, idex := s.idex.invalidate, exmem := s.exmem.invalidate,
    memwb := s.memwb.invalidate, window := some { lo := 1, hi := 1 } }

end Sys2Proof.Machine
end

