-- ==== Sys2Proof/Machine/Cycle.lean ====
section
/-! DEFINITION. The EX stage's dispatch and one scheduler cycle `Cycle()` (40_pipeline.md R81). -/

namespace Sys2Proof.Machine

/-- EX (40_pipeline.md R90): the instruction that the ID/EX latch's opcode and word select, else
`UnsupportedOperation` (60_exceptions.md R144). -/
def exStage (s : State) : Host.Outcome State Fault Refusal :=
  match decodeWith s.idex.opcode s.idex.instructionWord with
  | some i => exec i s
  | none => .next (raiseInEx .unsupportedOperation s)

/-- The part of the cycle before EX: WB, then MEM (40_pipeline.md R83). -/
def beforeEx (w : Window) (s : State) : Host.Outcome State Fault Refusal :=
  andThen (runStage w 5 wbStage s) (runStage w 4 memStage)

/-- The part of the cycle after EX: ID, IF, then the next window (40_pipeline.md R83, R84). -/
def afterEx (w : Window) (s : State) : Host.Outcome State Fault Refusal :=
  andThen (andThen (runStage w 2 idStage s) (runStage w 1 ifStage)) (schedule w)

/-- Steps 2 to 4 of the cycle for the window `w` (40_pipeline.md R81). -/
def runWindow (w : Window) (s : State) : Host.Outcome State Fault Refusal :=
  andThen (andThen (beforeEx w s) (runStage w 3 exStage)) (afterEx w)

/-- `Cycle()` (40_pipeline.md R81): a faulted machine and a completed one with pc not 0 do nothing (R99);
an EMPTY window with pc 0 is seeded (R82). DESIGN CHOICE, D12 and D18 (log 13, log 17). -/
def cycle (s : State) : Host.Outcome State Fault Refusal :=
  if s.status = .ok then
    match s.window with
    | some w => runWindow w s
    | none => if s.pc = pcReset then runWindow { lo := 1, hi := 1 } (seed s) else .next s
  else .next s

/-- What `Cycle()` and `step()` return (40_pipeline.md R81), FAULTED with the kind and the recorded word
(70_reset_and_hazards.md R177). -/
inductive CycleResult where
  | running
  | completed
  | faulted (kind : FaultKind) (info : Word)
  deriving DecidableEq, Repr

/-- The value `Cycle()` returns, read off the state it leaves: FAULTED when the status is not OK, else
COMPLETED when the window is EMPTY, else RUNNING (40_pipeline.md R81, R85, R99). -/
def cycleResult (after : State) : CycleResult :=
  match after.status with
  | .faulted kind info => .faulted kind info
  | .ok =>
    match after.window with
    | none => .completed
    | some _ => .running

end Sys2Proof.Machine
end

