-- ==== Sys2Proof/Machine/Step.lean ====
section
/-! DEFINITION. The machine's step, one scheduler cycle, and the placement of one instruction word for the
host's question (`withFetchWord`). -/

namespace Sys2Proof.Machine

/-- One step of the model is one call of `Cycle()` (40_pipeline.md R81, R189). DESIGN CHOICE, D2 (log 5). -/
def step (s : State) : Host.Outcome State Fault Refusal := cycle s

/-- `s` with the word placed as the one instruction of a program that has passed IF and ID: slot 0 holds it,
IF/ID and ID/EX carry it as those stages write it, pc is 4 and the window is EX alone, so that the very
next step runs it in EX. From reset this is the state two cycles after `load` of that one word. DESIGN CHOICE
(log 10). -/
def State.withFetchWord (s : State) (nbits w : Nat) : State :=
  let word : Word := BitVec.ofNat 32 (w % 2 ^ nbits)
  { writeIdex word (writeIfid word { s with imem := s.imem.write 0 word }) with
    pc := 4, window := some { lo := 3, hi := 3 }, status := .ok }

end Sys2Proof.Machine
end

