-- ==== Sys2Proof/Machine/HostOps.lean ====
section
/-! DEFINITION. The host's operations (70_reset_and_hazards.md R170 to R177, 40_pipeline.md R100). `reset()`
is `hostReset`; one `Cycle()` is `step`. -/

namespace Sys2Proof.Machine

/-! ### load (R173, R174) -/

/-- The errors `load` returns (60_exceptions.md R141, R142). They do not touch the machine's status. -/
inductive LoadError where
  | invalidProgram
  | invalidEncoding
  deriving DecidableEq, Repr

/-- A program as the host supplies it: strings of characters, `none` for a missing entry (R174). -/
abbrev ProgramText := List (Option (List Char))

/-- An entry is present and has exactly 32 characters (R174). -/
def entryHasLength (e : Option (List Char)) : Bool :=
  match e with
  | none => false
  | some cs => cs.length == 32

/-- Every character of an entry is '0' or '1' (60_exceptions.md R141). -/
def entryIsBits (e : Option (List Char)) : Bool :=
  match e with
  | none => false
  | some cs => cs.all (fun c => c == '0' || c == '1')

/-- The bits of a string read most significant first, after the bits in `acc` (00_scope.md R6). -/
def bitsValue (acc : Nat) : List Char → Nat
  | [] => acc
  | c :: cs => bitsValue (2 * acc + (if c = '1' then 1 else 0)) cs

/-- The Word of an entry: character j is bit 31 - j (00_scope.md R6, R173). -/
def entryWord (e : Option (List Char)) : Word := BitVec.ofNat 32 (bitsValue 0 (e.getD []))

/-- The checks of `load`, made on the whole sequence in the order of R174; `none` is success. -/
def checkProgram (p : ProgramText) : Option LoadError :=
  if p.length = 0 ∨ slotCount < p.length then some .invalidProgram
  else if p.all entryHasLength then
    if p.all entryIsBits then none else some .invalidEncoding
  else some .invalidProgram

/-- Put words into consecutive slots from `k` on. -/
def storeSlots (m : Memory) (k : Nat) : List Word → Memory
  | [] => m
  | w :: ws => storeSlots (m.write k w) (k + 1) ws

/-- `load(program)` (R173, R174; DESIGN CHOICE, D14 and D24, log 21 and log 22): on success
string i goes to slot i and nothing else changes; a failed `load` gives only its error, so the host goes on with the state it had. -/
def load (p : ProgramText) (s : State) : Except LoadError State :=
  match checkProgram p with
  | some e => .error e
  | none => .ok { s with imem := storeSlots s.imem 0 (p.map entryWord) }

/-! ### step() and run_to_completion() (40_pipeline.md R100) -/

/-- STEP_GROUP as a number of cycles (00_scope.md R5). -/
def groupSize : StepGroup → Nat
  | .one => 1
  | .five => 5

/-- Up to `n` consecutive cycles, stopping early at the first that does not return RUNNING. -/
def cycles : Nat → State → Host.Outcome State Fault Refusal
  | 0, s => .next s
  | n + 1, s => andThen (step s) (fun t => if cycleResult t = .running then cycles n t else .next t)

/-- `step()`: a group of cycles; what it returns to the host is `cycleResult` of the state it leaves. -/
def hostStep (s : State) : Host.Outcome State Fault Refusal := cycles (groupSize s.cfg.stepGroup) s

/-- `run_to_completion()`: `step()` looped until its result is not RUNNING; `none` when `fuel` steps did
not get there (the hardware has no such limit and may run for ever). DESIGN CHOICE (log 28). -/
def runToCompletion : Nat → State → Option (Host.Outcome State Fault Refusal)
  | 0, _ => none
  | fuel + 1, s =>
    match hostStep s with
    | .next t => if cycleResult t = .running then runToCompletion fuel t else some (.next t)
    | .fault r => some (.fault r)
    | .refused r => some (.refused r)

/-! ### Observers (R176) -/

/-- `get_registers()`: the 32 Words of the register file. -/
def getRegisters (s : State) : List Word := s.x.toList

/-- `get_memory()`: the 500 Words of data memory, under the index an address selects (20_memory.md R41). -/
def getMemory (s : State) : List Word := (List.range dataCells).map s.dmem.read

/-- `get_pc()`. -/
def getPc (s : State) : Word := s.pc

/-- `get_instructions()`: the 200 Words of the instruction store. -/
def getInstructions (s : State) : List Word := (List.range slotCount).map s.imem.read

end Sys2Proof.Machine
end

