-- ==== Sys2Proof/Safety.lean ====
section
/-! DEFINITION. The terms the claims are stated in: the legal states of 70_reset_and_hazards.md R187, the
windows, and the ranges of the checked arithmetic. -/

namespace Sys2Proof.Machine

/-- A sum that 32 bits hold (41_alu.md R110). -/
abbrev fitsSigned32 (n : Int) : Prop := -2 ^ 31 ≤ n ∧ n < 2 ^ 31

/-- `1 <= lo <= hi <= 5` (10_state.md R29). -/
abbrev Window.legal (w : Window) : Prop := 1 ≤ w.lo ∧ w.lo ≤ w.hi ∧ w.hi ≤ 5

/-- Stage number `n` has runnable work (10_state.md R29). -/
abbrev Window.has (w : Window) (n : Nat) : Prop := w.lo ≤ n ∧ n ≤ w.hi

/-- The EX/MEM latch's occupant is a LW or a SW (40_pipeline.md R93). -/
abbrev Latch.isAccess (l : Latch) : Prop := l.opcode = 35#6 ∨ l.opcode = 43#6

/-- The invariant of 70_reset_and_hazards.md R187, with what MEM relies on (42_loadstore.md R120) and the
canonical form of the two memories. -/
structure State.Inv (s : State) : Prop where
  /-- R187 (a). -/
  zeroRegister   : s.x[0] = 0
  /-- R187 (b). -/
  pcAligned      : isAligned s.pc = true
  /-- R187 (c). -/
  windowLegal    : ∀ w, s.window = some w → w.legal
  /-- R187 (d). -/
  exmemTarget    : s.exmem.registerTarget ≠ some 0
  /-- R187 (d). -/
  memwbTarget    : s.memwb.registerTarget ≠ some 0
  /-- The canonical form of data memory. -/
  dmemWf         : s.dmem.wf
  /-- Only the 500 cells exist (10_state.md R23), and R187 (e). -/
  dmemCells      : ∀ c ∈ s.dmem, c.1 < dataCells ∧ c.1 % 4 = 0
  /-- The canonical form of the instruction store. -/
  imemWf         : s.imem.wf
  /-- Only the 200 slots exist (10_state.md R24). -/
  imemSlots      : s.imem.within slotCount
  /-- R187 (g), the input latch of ID. -/
  ifidValid      : s.status = .ok → ∀ w, s.window = some w → w.has 2 → s.ifid.valid = true
  /-- R187 (g), the input latch of EX. -/
  idexValid      : s.status = .ok → ∀ w, s.window = some w → w.has 3 → s.idex.valid = true
  /-- R187 (g), the input latch of MEM. -/
  exmemValid     : s.status = .ok → ∀ w, s.window = some w → w.has 4 → s.exmem.valid = true
  /-- R187 (g), the input latch of WB. -/
  memwbValid     : s.status = .ok → ∀ w, s.window = some w → w.has 5 → s.memwb.valid = true
  /-- `IDEX.opcode` always equals `instr[31:26]` (40_pipeline.md R90). -/
  idexOpcode     : s.idex.valid = true → s.idex.opcode = opcodeField s.idex.instructionWord
  /-- MEM only sees addresses that passed EX's checks (42_loadstore.md R120). -/
  exmemAddress   : s.exmem.valid = true → s.exmem.isAccess → legalDataAddress s.exmem.memoryTarget = true
  /-- R187 (h). -/
  fetchable      : s.status = .ok → ∀ w, s.window = some w → w.lo = 1 →
                     inInstructionStore s.pc = true ∧ s.imem.read (slotIndex s.pc) ≠ blankCell

end Sys2Proof.Machine
end

