-- ==== Sys2Proof/Certificates/Slice0/Obligations.lean ====
section
/-! DEFINITION. The statements about this machine that the provers are asked to settle. A value the spec
leaves unspecified is an existentially bound word: the statement holds whatever it is. -/

open Sys2Proof Sys2Proof.Machine

/-! ### Encoding (30_encoding.md) -/

/-- No bit of an operand is lost between the encoder and the decoder (R61, R62, R63, R68). -/
def Obligations.DecodeOfEncodeIsIdentity : Prop :=
  ∀ i : Instr, i.wellFormed = true → decodeWord (encode i) = some i

/-- Every decoded instruction has operands that fit its fields, and its word is the given one with the
ignored fields cleared (R61, R64). That the encoder writes the ignored fields as 0 is the convention of the
spec's assembly text, D22 (R72; log 29). -/
def Obligations.DecodedInstructionsEncodeBack : Prop :=
  ∀ (w : Word) (i : Instr), decodeWord w = some i →
    i.wellFormed = true ∧ encode i = w &&& i.usedBits

/-- The decoder and the match and mask columns of the opcode map agree, both ways (R68). -/
def Obligations.DecoderAgreesWithOpcodeMap : Prop :=
  (∀ (w : Word) (i : Instr), decodeWord w = some i →
    ∃ r ∈ opcodeMap, r.mnemonic = i.mnemonic ∧ r.matchesWord w = true) ∧
  (∀ (w : Word), ∀ r ∈ opcodeMap, r.matchesWord w = true →
    ∃ i, decodeWord w = some i ∧ i.mnemonic = r.mnemonic)

/-- `shamt` of ADD and AND, and `rt`, `rd`, `shamt` of JR, do not change what a word decodes to (R64). -/
def Obligations.IgnoredFieldsDoNotChangeDecoding : Prop :=
  ∀ (w w' : Word) (i : Instr), decodeWord w = some i →
    w &&& i.usedBits = w' &&& i.usedBits → decodeWord w' = some i

/-- The unrecognized words are those with opcode outside {0, 2, 4, 8, 12, 35, 43} and those with opcode 0
and funct outside {8, 32, 36} (R69). -/
def Obligations.UnrecognizedWordsAreTheOthers : Prop :=
  ∀ w : Word, decodeWord w = none ↔
    ((w.extractLsb' 26 6).toNat ∉ [0, 2, 4, 8, 12, 35, 43] ∨
     ((w.extractLsb' 26 6).toNat = 0 ∧ (w.extractLsb' 0 6).toNat ∉ [8, 32, 36]))

/-- The words the spec writes out decode to the instructions it says (R75; 95_test_vectors.md part 2, VE1 to
VE9 and VE11). -/
def Obligations.SpecWordsDecodeAsWritten : Prop :=
  decodeWord 0x20080004#32 = some (.addi 8 0 4) ∧
  decodeWord 0x01496020#32 = some (.add 12 10 9) ∧
  decodeWord 0x2108FFFF#32 = some (.addi 8 8 (-1)) ∧
  decodeWord 0x012A4024#32 = some (.and 8 9 10) ∧
  decodeWord 0x31098001#32 = some (.andi 9 8 0x8001) ∧
  decodeWord 0x8D0AFFFC#32 = some (.lw 10 (-4) 8) ∧
  decodeWord 0xAC0801F0#32 = some (.sw 8 496 0) ∧
  decodeWord 0x11000002#32 = some (.beq 8 0 2) ∧
  decodeWord 0x08000032#32 = some (.j 50) ∧
  decodeWord 0x01000008#32 = some (.jr 8) ∧
  decodeWord 0x00000000#32 = none

/-! ### Checked addition (41_alu.md R110) -/

/-- The sum of the signed readings when 32 bits hold it, overflow exactly otherwise; and overflow is the
sign condition of the rule. -/
def Obligations.CheckedAdditionIsExact : Prop :=
  ∀ a b : Word,
    (fitsSigned32 (a.toInt + b.toInt) →
      ∃ r, add32 a b = some r ∧ r.toInt = a.toInt + b.toInt ∧ r.toNat = (a.toNat + b.toNat) % 2 ^ 32) ∧
    (¬ fitsSigned32 (a.toInt + b.toInt) → add32 a b = none) ∧
    (add32 a b = none ↔ a.msb = b.msb ∧ (a + b).msb ≠ a.msb)

/-! ### What each instruction does in EX -/

/-- ADD completes with the exact sum waiting for rd, and changes nothing else (41_alu.md R111). -/
def Obligations.AddCompletesWithSum : Prop :=
  ∀ (rd rs rt : RegIdx) (s : State), rd ≠ 0 →
    fitsSigned32 ((fwd s rs).toInt + (fwd s rt).toInt) →
    ∃ (m v : Word), v.toInt = (fwd s rs).toInt + (fwd s rt).toInt ∧
      exec (.add rd rs rt) s = .next { s with
        exmem := { valid := true, opcode := s.idex.opcode, registerTarget := some rd, memoryTarget := m,
                   writeVal := v, instructionWord := s.idex.instructionWord }
        drawn := s.drawn + 1 }

/-- ADDI completes with the exact sum of rs and the signed immediate waiting for rt (41_alu.md R112). -/
def Obligations.AddiCompletesWithSum : Prop :=
  ∀ (rt rs : RegIdx) (imm : Int) (s : State), rt ≠ 0 → (Instr.addi rt rs imm).wellFormed = true →
    fitsSigned32 ((fwd s rs).toInt + imm) →
    ∃ (m v : Word), v.toInt = (fwd s rs).toInt + imm ∧
      exec (.addi rt rs imm) s = .next { s with
        exmem := { valid := true, opcode := s.idex.opcode, registerTarget := some rt, memoryTarget := m,
                   writeVal := v, instructionWord := s.idex.instructionWord }
        drawn := s.drawn + 1 }

/-- AND completes with the bitwise and waiting for rd (41_alu.md R113). -/
def Obligations.AndCompletesBitwise : Prop :=
  ∀ (rd rs rt : RegIdx) (s : State), rd ≠ 0 →
    ∃ (m v : Word), (∀ k < 32, v.getLsbD k = ((fwd s rs).getLsbD k && (fwd s rt).getLsbD k)) ∧
      exec (.and rd rs rt) s = .next { s with
        exmem := { valid := true, opcode := s.idex.opcode, registerTarget := some rd, memoryTarget := m,
                   writeVal := v, instructionWord := s.idex.instructionWord }
        drawn := s.drawn + 1 }

/-- ANDI completes with the bitwise and of rs and its immediate: bits 15 to 0 against the field, the upper
16 against 0 under ANDI_EXT = zero and against the field's bit 15 under sign. The widening is the spec's
open parameter (R66, D7; log 2). -/
def Obligations.AndiCompletesUnderBothExtensions : Prop :=
  ∀ (rt rs : RegIdx) (imm : Nat) (s : State), rt ≠ 0 → (Instr.andi rt rs imm).wellFormed = true →
    ∃ (m v : Word),
      (∀ k < 16, v.getLsbD k = ((fwd s rs).getLsbD k && imm.testBit k)) ∧
      (∀ k < 32, 16 ≤ k → v.getLsbD k =
        ((fwd s rs).getLsbD k && (imm.testBit 15 && decide (s.cfg.andiExt = .sign)))) ∧
      exec (.andi rt rs imm) s = .next { s with
        exmem := { valid := true, opcode := s.idex.opcode, registerTarget := some rt, memoryTarget := m,
                   writeVal := v, instructionWord := s.idex.instructionWord }
        drawn := s.drawn + 1 }

/-- LW completes with the checked address and its destination in EX/MEM; the value there is unspecified
(42_loadstore.md R120, R121). -/
def Obligations.LwCompletesWithAddress : Prop :=
  ∀ (rt rs : RegIdx) (off : Int) (s : State), rt ≠ 0 → (Instr.lw rt off rs).wellFormed = true →
    0 ≤ (fwd s rs).toInt + off → (fwd s rs).toInt + off < 500 → ((fwd s rs).toInt + off) % 4 = 0 →
    ∃ (a v : Word), a.toInt = (fwd s rs).toInt + off ∧
      exec (.lw rt off rs) s = .next { s with
        exmem := { valid := true, opcode := s.idex.opcode, registerTarget := some rt, memoryTarget := a,
                   writeVal := v, instructionWord := s.idex.instructionWord }
        drawn := s.drawn + 1 }

/-- SW completes with the checked address and the forwarded data in EX/MEM and no destination; register 0
as the source is an ordinary form (42_loadstore.md R120, R122). -/
def Obligations.SwCompletesWithAddressAndData : Prop :=
  ∀ (rt rs : RegIdx) (off : Int) (s : State), (Instr.sw rt off rs).wellFormed = true →
    0 ≤ (fwd s rs).toInt + off → (fwd s rs).toInt + off < 500 → ((fwd s rs).toInt + off) % 4 = 0 →
    ∃ (a : Word), a.toInt = (fwd s rs).toInt + off ∧
      exec (.sw rt off rs) s = .next { s with
        exmem := { valid := true, opcode := s.idex.opcode, registerTarget := none, memoryTarget := a,
                   writeVal := fwd s rt, instructionWord := s.idex.instructionWord }
        drawn := s.drawn + 1 }

/-- BEQ completes: taken with a target in [4, 800) it moves pc by 4 times the immediate; not taken it leaves
pc alone whatever the immediate. That the range is tested only when taken is the spec's choice (D9; log 18). -/
def Obligations.BeqCompletesTakenAndNot : Prop :=
  ∀ (rs rt : RegIdx) (imm : Int) (s : State),
    (fwd s rs = fwd s rt → 4 ≤ s.pc.toInt + 4 * imm → s.pc.toInt + 4 * imm < 800 →
      ∃ (t m v : Word), t.toInt = s.pc.toInt + 4 * imm ∧
        exec (.beq rs rt imm) s = .next { s with
          pc := t
          exmem := { valid := true, opcode := s.idex.opcode, registerTarget := none, memoryTarget := m,
                     writeVal := v, instructionWord := s.idex.instructionWord }
          drawn := s.drawn + 1 }) ∧
    (fwd s rs ≠ fwd s rt →
      ∃ (m v : Word),
        exec (.beq rs rt imm) s = .next { s with
          exmem := { valid := true, opcode := s.idex.opcode, registerTarget := none, memoryTarget := m,
                     writeVal := v, instructionWord := s.idex.instructionWord }
          drawn := s.drawn + 1 })

/-- J completes when its target, the top four bits of pc, the 26 field bits and two zero bits, is below
J_LIMIT, and sets pc to it (43_control.md R132, 30_encoding.md R67). J_LIMIT is the spec's open parameter
(D8; log 2). -/
def Obligations.JCompletesBelowLimit : Prop :=
  ∀ (idx : Nat) (s : State), (Instr.j idx).wellFormed = true →
    s.pc.toNat / 2 ^ 28 * 2 ^ 28 + 4 * idx < (if s.cfg.jLimit = .fix then 800 else 200) →
    ∃ (t m v : Word), t.toNat = s.pc.toNat / 2 ^ 28 * 2 ^ 28 + 4 * idx ∧
      exec (.j idx) s = .next { s with
        pc := t
        exmem := { valid := true, opcode := s.idex.opcode, registerTarget := none, memoryTarget := m,
                   writeVal := v, instructionWord := s.idex.instructionWord }
        drawn := s.drawn + 1 }

/-- JR completes for every register value that is a multiple of 4, in the store or not, and traps with
`UnalignedAddress`, pc unchanged, for every other (43_control.md R133). No bounds check: the spec's choice D20
(log 25). -/
def Obligations.JrCompletesExactlyWhenAligned : Prop :=
  ∀ (rs : RegIdx) (s : State),
    ((fwd s rs).toNat % 4 = 0 →
      ∃ (m v : Word),
        exec (.jr rs) s = .next { s with
          pc := fwd s rs
          exmem := { valid := true, opcode := s.idex.opcode, registerTarget := none, memoryTarget := m,
                     writeVal := v, instructionWord := s.idex.instructionWord }
          drawn := s.drawn + 1 }) ∧
    ((fwd s rs).toNat % 4 ≠ 0 →
      exec (.jr rs) s = .next { s with status := .faulted .unalignedAddress s.idex.instructionWord })

/-! ### Where an instruction traps -/

/-- A destination of register 0 raises `RegisterZeroWrite` for any operand values and writes nothing else;
SW, BEQ, J and JR never raise it (60_exceptions.md R145). -/
def Obligations.ZeroDestinationAlwaysTraps : Prop :=
  ∀ (i : Instr) (s : State), s.status = .ok →
    (((∃ rs rt, i = .add 0 rs rt) ∨ (∃ rs imm, i = .addi 0 rs imm) ∨ (∃ rs rt, i = .and 0 rs rt) ∨
      (∃ rs imm, i = .andi 0 rs imm) ∨ (∃ off rs, i = .lw 0 off rs)) ↔
      exec i s = .next { s with status := .faulted .registerZeroWrite s.idex.instructionWord })

/-- ADD, ADDI and the address of LW and SW raise `ArithmeticOverflow` when the exact sum leaves the signed
32-bit range, recording the instruction word and writing nothing else (60_exceptions.md R146). The pairing of
overflow with that kind is the spec's choice D13 (log 20); that register 0 as destination is tested first and
that nothing is written is its choice D11 (log 19). -/
def Obligations.OverflowTraps : Prop :=
  ∀ (s : State) (d rs rt : RegIdx) (n : Int), d ≠ 0 → fitsSigned16 n = true →
    (¬ fitsSigned32 ((fwd s rs).toInt + (fwd s rt).toInt) →
      exec (.add d rs rt) s =
        .next { s with status := .faulted .arithmeticOverflow s.idex.instructionWord }) ∧
    (¬ fitsSigned32 ((fwd s rs).toInt + n) →
      exec (.addi d rs n) s =
        .next { s with status := .faulted .arithmeticOverflow s.idex.instructionWord } ∧
      exec (.lw d n rs) s =
        .next { s with status := .faulted .arithmeticOverflow s.idex.instructionWord } ∧
      exec (.sw rt n rs) s =
        .next { s with status := .faulted .arithmeticOverflow s.idex.instructionWord })

/-- LW and SW raise `UnalignedAddress` for an address that is not a multiple of 4, in bounds or not, and
`AddressOutOfBounds` for an aligned one outside [0, 500); memory, registers and latches are unchanged. The
order of the two checks and the kind of the second are the spec's choice (42_loadstore.md R120, D11, D13;
log 19, log 20). -/
def Obligations.BadDataAddressTraps : Prop :=
  ∀ (s : State) (d rs rt : RegIdx) (n : Int), d ≠ 0 → fitsSigned16 n = true →
    fitsSigned32 ((fwd s rs).toInt + n) →
    (((fwd s rs).toInt + n) % 4 ≠ 0 →
      exec (.lw d n rs) s =
        .next { s with status := .faulted .unalignedAddress s.idex.instructionWord } ∧
      exec (.sw rt n rs) s =
        .next { s with status := .faulted .unalignedAddress s.idex.instructionWord }) ∧
    (((fwd s rs).toInt + n) % 4 = 0 → ((fwd s rs).toInt + n < 0 ∨ 500 ≤ (fwd s rs).toInt + n) →
      exec (.lw d n rs) s =
        .next { s with status := .faulted .addressOutOfBounds s.idex.instructionWord } ∧
      exec (.sw rt n rs) s =
        .next { s with status := .faulted .addressOutOfBounds s.idex.instructionWord })

/-- A taken BEQ with a target below 4 or at or past 800, and a J with a target at or past J_LIMIT, raise
`AddressOutOfBounds` and do not alter pc (43_control.md R131, R132; the kind and the limit are the spec's
choices D8, D9, D13, log 2, log 18, log 20). -/
def Obligations.BadTransferTargetTraps : Prop :=
  ∀ (s : State) (rs rt : RegIdx) (imm : Int) (idx : Nat), (Instr.j idx).wellFormed = true →
    (fwd s rs = fwd s rt → (s.pc.toInt + 4 * imm < 4 ∨ 800 ≤ s.pc.toInt + 4 * imm) →
      exec (.beq rs rt imm) s =
        .next { s with status := .faulted .addressOutOfBounds s.idex.instructionWord }) ∧
    ((if s.cfg.jLimit = .fix then 800 else 200) ≤ s.pc.toNat / 2 ^ 28 * 2 ^ 28 + 4 * idx →
      exec (.j idx) s =
        .next { s with status := .faulted .addressOutOfBounds s.idex.instructionWord })

/-! ### Frames of EX (40_pipeline.md R90, R92) -/

/-- EX of any instruction answers a next state in which no register, no memory cell, no slot and no other
latch has changed; only BEQ, J and JR move pc; and a handler that raises has written nothing but the status.
That it then writes no latch either is the spec's choice D11 (log 19). -/
def Obligations.ExTouchesOnlyItsOutputs : Prop :=
  ∀ (i : Instr) (s : State), ∃ t, exec i s = .next t ∧
    t.x = s.x ∧ t.dmem = s.dmem ∧ (∀ a, t.dmem.read a = s.dmem.read a) ∧ t.imem = s.imem ∧
    t.ifid = s.ifid ∧ t.idex = s.idex ∧ t.memwb = s.memwb ∧ t.window = s.window ∧ t.cfg = s.cfg ∧
    ((∀ rs rt imm, i ≠ .beq rs rt imm) → (∀ idx, i ≠ .j idx) → (∀ rs, i ≠ .jr rs) → t.pc = s.pc) ∧
    ((∃ k, t = { s with status := .faulted k s.idex.instructionWord }) ∨
     (t.status = s.status ∧ t.exmem.valid = true ∧ t.exmem.opcode = s.idex.opcode ∧
      t.exmem.instructionWord = s.idex.instructionWord ∧ t.exmem.registerTarget ≠ some 0))

/-! ### The other stages (40_pipeline.md R88, R89, R93, R94) -/

/-- WB writes the MEM/WB value into its destination, and nothing for the sentinel or register 0 (R94). -/
def Obligations.WbWritesOnlyItsDestination : Prop :=
  ∀ s : State, ∃ t, wbStage s = .next t ∧ t = { s with x := t.x } ∧
    ∀ r : RegIdx, t.x[r.val] =
      if s.memwb.registerTarget = some r ∧ r ≠ 0 then s.memwb.writeVal else s.x[r.val]

/-- MEM of a SW stores the EX/MEM value at its address, every other cell unchanged, and passes no
destination; of a LW it takes the cell into MEM/WB; of anything else it passes value and destination
through. It changes only data memory and MEM/WB (R93). The cell index is the spec's choice D6 (log 8). -/
def Obligations.MemStageAccessesOneCell : Prop :=
  ∀ s : State, (s.exmem.isAccess → legalDataAddress s.exmem.memoryTarget = true) →
    ∃ t, memStage s = .next t ∧
      t = { s with dmem := t.dmem, memwb := t.memwb, drawn := t.drawn } ∧
      t.memwb.valid = true ∧ t.memwb.opcode = s.exmem.opcode ∧
      t.memwb.instructionWord = s.exmem.instructionWord ∧
      (s.exmem.opcode = 43#6 → t.memwb.registerTarget = none ∧
        ∀ a, t.dmem.read a =
          if a = s.exmem.memoryTarget.toInt.toNat then s.exmem.writeVal else s.dmem.read a) ∧
      (s.exmem.opcode = 35#6 → t.memwb.registerTarget = s.exmem.registerTarget ∧
        t.memwb.writeVal = s.dmem.read s.exmem.memoryTarget.toInt.toNat ∧ t.dmem = s.dmem) ∧
      (¬ s.exmem.isAccess → t.memwb.registerTarget = s.exmem.registerTarget ∧
        t.memwb.writeVal = s.exmem.writeVal ∧ t.dmem = s.dmem)

/-- ID copies the opcode field and the raw word into ID/EX, cannot fault and reads no register: with any
other register file it does the same (R89). -/
def Obligations.IdCopiesOpcodeAndWord : Prop :=
  ∀ s : State, ∃ t, idStage s = .next t ∧
    t = { s with idex := t.idex, drawn := t.drawn } ∧
    t.idex.valid = true ∧ t.idex.instructionWord = s.ifid.instructionWord ∧
    t.idex.opcode.toNat = s.ifid.instructionWord.toNat / 2 ^ 26 ∧
    ∀ y : Vector Word 32, idStage { s with x := y } = .next { t with x := y }

/-- IF takes the slot at pc / 4 into IF/ID and advances pc by 4; outside the store it raises, writing
nothing (R88; that it raises there is the spec's choice D5, log 16). -/
def Obligations.IfFetchesSlotAtPc : Prop :=
  ∀ s : State, s.pc.toNat % 4 = 0 →
    (s.pc.toNat < 800 →
      ∃ t, ifStage s = .next t ∧ t = { s with ifid := t.ifid, pc := t.pc, drawn := t.drawn } ∧
        t.ifid.valid = true ∧ t.ifid.instructionWord = s.imem.read (s.pc.toNat / 4) ∧
        t.pc.toNat = s.pc.toNat + 4) ∧
    (800 ≤ s.pc.toNat → ifStage s = .next { s with status := .faulted .addressOutOfBounds s.pc })

/-! ### Forwarding (40_pipeline.md R91, 70_reset_and_hazards.md R178, R179) -/

/-- A source read takes the pending EX/MEM value exactly when that latch is valid and names the register. -/
def Obligations.SourceReadsForwardFromExmem : Prop :=
  ∀ (s : State) (i : RegIdx),
    (s.exmem.valid = true → s.exmem.registerTarget = some i → fwd s i = s.exmem.writeVal) ∧
    ((s.exmem.valid = false ∨ s.exmem.registerTarget ≠ some i) → fwd s i = s.x[i.val])

/-- What EX of a cycle reads: the result of the instruction one back from EX/MEM, of the instruction two
back from the file WB has just written, and of older ones from the file (R97, R178, derived there). -/
def Obligations.ExReadsResultsOneAndTwoBack : Prop :=
  ∀ (s t : State) (w : Window) (i : RegIdx), s.status = .ok → w.has 3 →
    beforeEx w s = .next t →
    fwd t i =
      if s.exmem.valid = true ∧ s.exmem.registerTarget = some i then s.exmem.writeVal
      else if w.has 5 ∧ s.memwb.registerTarget = some i ∧ i ≠ 0 then s.memwb.writeVal
      else s.x[i.val]

/-- The instruction right behind a LW that reads its destination reads the free value LW_EX_VALUE, not the
loaded cell (R179, D10; log 3, log 4). -/
def Obligations.LoadUseReadsFreeValue : Prop :=
  ∀ (s t : State) (rt rs : RegIdx) (off : Int), exec (.lw rt off rs) s = .next t →
    t.status = .ok → fwd t rt = Config.freeWriteVal s.drawn ∧ t.x = s.x

/-! ### The cycle (40_pipeline.md R81 to R99) -/

/-- A step whose window has EX runs exactly the decoded instruction, between WB and MEM before it and ID, IF
and the scheduler after it (R81, R83, R90). -/
def Obligations.StepRunsDecodedInstruction : Prop :=
  ∀ (s s1 : State) (w : Window) (i : Instr), s.status = .ok → s.window = some w → w.has 3 →
    s.idex.opcode = opcodeField s.idex.instructionWord →
    decodeWord s.idex.instructionWord = some i → beforeEx w s = .next s1 →
    step s = andThen (exec i s1) (afterEx w) ∧ s1.idex = s.idex ∧ s1.exmem = s.exmem ∧ s1.pc = s.pc ∧
      s1.status = .ok

/-- Every word that is none of the nine instructions raises `UnsupportedOperation`, recording the word, when
it reaches EX; WB and MEM of that cycle stay and nothing after EX runs (30_encoding.md R69, 60_exceptions.md
R144, R153). -/
def Obligations.UnrecognizedWordTrapsInEx : Prop :=
  ∀ (s s1 : State) (w : Window), s.status = .ok → s.window = some w → w.has 3 →
    s.idex.opcode = opcodeField s.idex.instructionWord →
    ((opcodeField s.idex.instructionWord).toNat ∉ [0, 2, 4, 8, 12, 35, 43] ∨
     ((opcodeField s.idex.instructionWord).toNat = 0 ∧
      (functField s.idex.instructionWord).toNat ∉ [8, 32, 36])) →
    beforeEx w s = .next s1 →
    step s = .next { s1 with status := .faulted .unsupportedOperation s.idex.instructionWord }

/-- A raise in EX ends the cycle: the state is the one WB and MEM left, with the status FAULTED(kind,
instruction word); pc, the window, the instruction store and the three younger latches are as they were
before the cycle, and every later step changes nothing (R98, R153, R155). -/
def Obligations.ExFaultAbortsTheCycle : Prop :=
  ∀ (s s1 s2 : State) (w : Window) (k : FaultKind) (info : Word),
    s.status = .ok → s.window = some w → w.has 3 → beforeEx w s = .next s1 →
    exStage s1 = .next s2 → s2.status = .faulted k info →
    ∃ t, step s = .next t ∧ t = { s1 with status := .faulted k s.idex.instructionWord } ∧
      t.pc = s.pc ∧ t.window = s.window ∧ t.imem = s.imem ∧
      t.ifid = s.ifid ∧ t.idex = s.idex ∧ t.exmem = s.exmem ∧ step t = .next t

/-- A faulted machine stays as it is for any number of cycles, each returning FAULTED with the kind and the
word, and `reset()` makes its status OK. The sticky status is the spec's choice D12 (R99, R155, R177; log 1,
log 13). -/
def Obligations.FaultedMachineIsStuck : Prop :=
  ∀ (s : State) (n : Nat) (k : FaultKind) (info : Word), s.status = .faulted k info →
    Sys2Proof.core.run n s = .next s ∧ cycleResult s = .faulted k info ∧ (hostReset s).status = .ok

/-- A completed machine whose pc is not 0 stays as it is for any number of cycles, each returning COMPLETED:
the spec's choice D18 (R99; log 17). -/
def Obligations.CompletedMachineIsStuck : Prop :=
  ∀ (s : State) (n : Nat), s.status = .ok → s.window = none → s.pc ≠ 0 →
    Sys2Proof.core.run n s = .next s ∧ cycleResult s = .completed

/-- An EMPTY window with pc 0, at first start and after a completed run alike, is seeded: the cycle fetches
slot 0 without a zero test and nothing left in EX/MEM can be forwarded. Invalidating the latches is the
spec's choice D4 (R82, R185; log 14). -/
def Obligations.SeedingFetchesSlotZero : Prop :=
  ∀ s : State, s.status = .ok → s.window = none → s.pc = 0 →
    ∃ t, step s = .next t ∧ t.status = .ok ∧ t.pc = 4 ∧
      t.ifid.valid = true ∧ t.ifid.instructionWord = s.imem.read 0 ∧
      t.exmem.valid = false ∧ t.exmem.registerTarget = none ∧
      t.x = s.x ∧ t.dmem = s.dmem ∧ t.imem = s.imem ∧
      t.window = some { lo := if s.imem.read 1 = 0 then 2 else 1, hi := 2 } ∧
      ∀ i : RegIdx, fwd t i = s.x[i.val]

/-- The next window after a cycle that did not fault: lo stays 1 exactly while the slot at the new pc is
non-zero, else it advances by one; hi advances up to 5; EMPTY when lo passes hi. That the drain is
irreversible is the spec's choice D3 (R84, R85, R87; log 15); that the new pc is in the store, because the
look-ahead raises outside it, is its choice D5 (log 16). -/
def Obligations.WindowFollowsLookAhead : Prop :=
  ∀ (s t : State) (w : Window), s.status = .ok → s.window = some w → w.legal →
    step s = .next t → t.status = .ok →
    (w.lo = 1 → t.window =
      some { lo := if t.imem.read (t.pc.toNat / 4) = 0 then 2 else 1, hi := min (w.hi + 1) 5 } ∧
      t.pc.toNat < 800) ∧
    (1 < w.lo → w.lo < 5 → t.window = some { lo := w.lo + 1, hi := min (w.hi + 1) 5 }) ∧
    (w.lo = 5 → t.window = none)

/-- While draining, IF never runs and no look-ahead is made: IF/ID and the pc EX left are kept, and a
control transfer changes pc and nothing is fetched from its target (R87, R181; spec's choice D3, log 15). -/
def Obligations.DrainNeverFetches : Prop :=
  ∀ (s s1 s2 : State) (w : Window), s.status = .ok → s.window = some w → 1 < w.lo →
    beforeEx w s = .next s1 → runStage w 3 exStage s1 = .next s2 →
    ∃ t, step s = .next t ∧ t.ifid = s.ifid ∧ t.pc = s2.pc ∧ t.status = s2.status ∧ t.exmem = s2.exmem

/-- Once lo > 1 the run ends in 6 - lo further cycles: it has completed or it has faulted (R187 (i)).
It rests on the irreversible drain, the spec's choice D3 (R87; log 15). -/
def Obligations.DrainEndsInSixMinusLo : Prop :=
  ∀ (s : State) (w : Window), s.Inv → s.status = .ok → s.window = some w → 1 < w.lo →
    ∃ t, Sys2Proof.core.run (6 - w.lo) s = .next t ∧ cycleResult t ≠ .running

/-- The delay slot: in the cycle in which EX completes with pc at T, ID takes the instruction already
fetched behind it, which is never cancelled, and IF fetches the slot at T (43_control.md R130 (a)). -/
def Obligations.TransferFetchesTargetAfterDelaySlot : Prop :=
  ∀ (s s1 s2 : State) (w : Window), s.status = .ok → s.window = some w → w.lo = 1 → 3 ≤ w.hi →
    beforeEx w s = .next s1 → exStage s1 = .next s2 → s2.status = .ok →
    s2.pc.toNat % 4 = 0 → s2.pc.toNat + 4 < 800 →
    ∃ t, step s = .next t ∧ t.status = .ok ∧
      t.idex.valid = true ∧ t.idex.instructionWord = s.ifid.instructionWord ∧
      t.ifid.instructionWord = s.imem.read (s2.pc.toNat / 4) ∧ t.pc.toNat = s2.pc.toNat + 4

/-- Slot 199 can never be fetched without a fault: the look-ahead of that same cycle raises
`AddressOutOfBounds` with pc 800 (70_reset_and_hazards.md R184; rests on the spec's choice D5, log 16). -/
def Obligations.FetchingTheLastSlotFaults : Prop :=
  ∀ (s s1 s2 : State) (w : Window), s.status = .ok → s.window = some w → w.lo = 1 → 1 ≤ w.hi →
    beforeEx w s = .next s1 → runStage w 3 exStage s1 = .next s2 → s2.status = .ok → s2.pc = 796 →
    ∃ t, step s = .next t ∧ t.ifid.instructionWord = s.imem.read 199 ∧ t.pc = 800 ∧
      t.status = .faulted .addressOutOfBounds 0x00000320#32

/-- A JR out of the store faults in IF of the same cycle, recording pc, with WB, MEM, EX and ID of that
cycle kept; nothing else has changed since ID (R148 (d), R152, R153; rests on D5, log 16). -/
def Obligations.FetchOutsideTheStoreFaults : Prop :=
  ∀ (s s1 s2 s3 : State) (w : Window), s.status = .ok → s.window = some w → w.lo = 1 → 1 ≤ w.hi →
    beforeEx w s = .next s1 → runStage w 3 exStage s1 = .next s2 → runStage w 2 idStage s2 = .next s3 →
    s2.status = .ok → s2.pc.toNat % 4 = 0 → 800 ≤ s2.pc.toNat →
    step s = .next { s3 with status := .faulted .addressOutOfBounds s2.pc }

/-- Every instruction in the window moves to the next latch in a cycle that does not fault, and its stage in
the next cycle is in the next window: no stalls, bubbles, flushes or squashes (R95, R96). -/
def Obligations.EachInstructionAdvancesOneStage : Prop :=
  ∀ (s t : State) (w : Window), s.status = .ok → s.window = some w → w.legal →
    step s = .next t → t.status = .ok →
    (w.has 2 → t.idex.instructionWord = s.ifid.instructionWord ∧ t.idex.valid = true) ∧
    (w.has 3 → t.exmem.instructionWord = s.idex.instructionWord ∧ t.exmem.valid = true) ∧
    (w.has 4 → t.memwb.instructionWord = s.exmem.instructionWord ∧ t.memwb.valid = true) ∧
    (∀ n < 5, w.has n → ∃ w', t.window = some w' ∧ w'.has (n + 1))

/-! ### When results land (40_pipeline.md R97) -/

/-- The pending result of an instruction that is no load or store is in the register file two cycles later,
whether or not that later cycle faults. -/
def Obligations.AluResultLandsTwoCyclesLater : Prop :=
  ∀ (s t u : State) (w : Window) (r : RegIdx), s.status = .ok → s.window = some w → w.legal → w.has 4 →
    ¬ s.exmem.isAccess → s.exmem.registerTarget = some r → r ≠ 0 →
    step s = .next t → t.status = .ok → step t = .next u →
    u.x[r.val] = s.exmem.writeVal

/-- A load's destination holds, two cycles after its EX, the cell at its address as memory stood when its MEM
stage ran (42_loadstore.md R121). -/
def Obligations.LoadedCellLandsTwoCyclesLater : Prop :=
  ∀ (s t u : State) (w : Window) (r : RegIdx), s.status = .ok → s.window = some w → w.legal → w.has 4 →
    s.exmem.opcode = 35#6 → s.exmem.registerTarget = some r → r ≠ 0 →
    step s = .next t → t.status = .ok → step t = .next u →
    u.x[r.val] = s.dmem.read s.exmem.memoryTarget.toInt.toNat

/-- A step changes data memory only by the store in MEM, at exactly that store's address, and the store
stays even when a younger instruction faults in the same cycle (42_loadstore.md R122, 60_exceptions.md
R153). -/
def Obligations.StepStoresOnlyWhatMemHolds : Prop :=
  ∀ (s t : State) (w : Window), s.status = .ok → s.window = some w → step s = .next t →
    ∀ a : Nat, t.dmem.read a =
      if w.has 4 ∧ s.exmem.opcode = 43#6 ∧ a = s.exmem.memoryTarget.toInt.toNat then s.exmem.writeVal
      else s.dmem.read a

/-- A SW that completes EX stores its forwarded data at its effective address in the MEM stage that follows;
EX and MEM together change nothing else but EX/MEM, MEM/WB, which gets no destination, and the model's counter
(42_loadstore.md R122, 40_pipeline.md R93). The cell index is the spec's choice D6 (log 8). -/
def Obligations.SwStoresItsDataAtItsAddress : Prop :=
  ∀ (s t : State) (rt rs : RegIdx) (off : Int) (a : Word),
    s.idex.opcode = 43#6 → effectiveAddress s rs off = .ok a → exec (.sw rt off rs) s = .next t →
    ∃ u, memStage t = .next u ∧
      u = { s with dmem := u.dmem, exmem := t.exmem, memwb := u.memwb, drawn := u.drawn } ∧
      u.memwb.valid = true ∧ u.memwb.opcode = 43#6 ∧ u.memwb.registerTarget = none ∧
      u.memwb.instructionWord = s.idex.instructionWord ∧
      (∀ b : Nat, u.dmem.read b = if b = cellIndex a then fwd s rt else s.dmem.read b)

/-- A step writes a register only in WB: the MEM/WB destination, and never register 0 (10_state.md R20,
R21). -/
def Obligations.StepWritesOnlyTheWbRegister : Prop :=
  ∀ (s t : State) (w : Window) (r : RegIdx), s.status = .ok → s.window = some w → step s = .next t →
    t.x[r.val] =
      if w.has 5 ∧ s.memwb.registerTarget = some r ∧ r ≠ 0 then s.memwb.writeVal else s.x[r.val]

/-- No step changes the instruction store or a parameter: stores are never seen by instruction fetch
(20_memory.md R53). -/
def Obligations.StepNeverWritesInstructions : Prop :=
  ∀ s t : State, step s = .next t → t.imem = s.imem ∧ t.cfg = s.cfg

/-! ### Invariants (70_reset_and_hazards.md R187) -/

/-- The reset state is legal (R171, R187). -/
def Obligations.ResetIsLegal : Prop := State.reset.Inv

/-- Every step from a legal state leads to a legal state (R187 (a) to (e), (g), (h)). -/
def Obligations.StepKeepsLegality : Prop :=
  ∀ s t : State, s.Inv → step s = .next t → t.Inv

/-- From a legal state the machine never stops: every step answers a next state. In particular MEM cannot
fault, a misaligned fetch cannot occur and no instruction is refused (R93, R120, 20_memory.md R47). -/
def Obligations.LegalStatesAlwaysStep : Prop :=
  ∀ s : State, s.Inv → ∃ t, step s = .next t

/-- A program loaded into the reset state gives a legal state (R175, R187). -/
def Obligations.LoadedResetIsLegal : Prop :=
  ∀ (p : ProgramText) (s : State), load p State.reset = .ok s → s.Inv

/-! ### Host operations (70_reset_and_hazards.md R170 to R177) -/

/-- `reset()` zeroes pc, every register, every cell and every slot, from any state; and by the spec's choice
D4, D12 it invalidates the latches, empties the window and clears the status (R170; log 13, log 14). -/
def Obligations.ResetZeroesEverything : Prop :=
  ∀ s : State,
    getPc (hostReset s) = 0 ∧ getRegisters (hostReset s) = List.replicate 32 0 ∧
    getMemory (hostReset s) = List.replicate 500 0 ∧
    getInstructions (hostReset s) = List.replicate 200 0 ∧
    (∀ l ∈ [(hostReset s).ifid, (hostReset s).idex, (hostReset s).exmem, (hostReset s).memwb],
      l = { valid := false, opcode := 0, registerTarget := none, memoryTarget := 0, writeVal := 0,
            instructionWord := 0 }) ∧
    (hostReset s).window = none ∧ (hostReset s).status = .ok

/-- A successful `load` stores string i at slot i, character j being bit 31 - j, and changes nothing else:
not the slots past the program, nor any other state (R173; leaving those slots is the spec's choice D14,
log 21). -/
def Obligations.LoadStoresStringAtItsSlot : Prop :=
  ∀ (p : ProgramText) (s t : State), load p s = .ok t →
    t = { s with imem := t.imem } ∧
    (∀ (i : Nat) (cs : List Char), p[i]? = some (some cs) →
      ∀ (j : Nat) (c : Char), cs[j]? = some c → (t.imem.read i).getMsbD j = decide (c = '1')) ∧
    (∀ i, p.length ≤ i → t.imem.read i = s.imem.read i)

/-- `load` fails with `InvalidProgram` for an empty or too long sequence, a missing entry or a string whose
length is not 32, with `InvalidEncoding` for another character in a string of 32, and succeeds otherwise;
the order and the second kind are the spec's choices D14, D24 (R174; log 21, log 22). -/
def Obligations.LoadErrorsInListedOrder : Prop :=
  ∀ (p : ProgramText) (s : State),
    (load p s = .error .invalidProgram ↔
      p.length = 0 ∨ 200 < p.length ∨ ∃ e ∈ p, ∀ cs, e = some cs → cs.length ≠ 32) ∧
    (load p s = .error .invalidEncoding ↔
      p.length ≠ 0 ∧ p.length ≤ 200 ∧ (∀ e ∈ p, ∃ cs, e = some cs ∧ cs.length = 32) ∧
      ∃ cs, some cs ∈ p ∧ ∃ c ∈ cs, c ≠ '0' ∧ c ≠ '1') ∧
    ((∃ t, load p s = .ok t) ↔
      p.length ≠ 0 ∧ p.length ≤ 200 ∧
      ∀ e ∈ p, ∃ cs, e = some cs ∧ cs.length = 32 ∧ ∀ c ∈ cs, c = '0' ∨ c = '1')

/-- The final state of `run_to_completion()` does not depend on STEP_GROUP: a machine stepped in groups of
five ends in a state exactly when the same machine stepped one cycle at a time ends in it
(40_pipeline.md R100). -/
def Obligations.StepGroupDoesNotChangeTheEnd : Prop :=
  ∀ s t : State,
    (∃ fuel, runToCompletion fuel { s with cfg := { s.cfg with stepGroup := .five } } =
      some (.next { t with cfg := { t.cfg with stepGroup := .five } })) ↔
    (∃ fuel, runToCompletion fuel { s with cfg := { s.cfg with stepGroup := .one } } =
      some (.next { t with cfg := { t.cfg with stepGroup := .one } }))

/-- Stepping the reset state with no program loaded ends in `UnsupportedOperation(0x00000000)` in the third
cycle, with the zero word of slot 0 in EX (R171, 30_encoding.md R70). -/
def Obligations.EmptyProgramFaultsInThirdCycle : Prop :=
  ∃ t, Sys2Proof.core.run 3 State.reset = .next t ∧
    t.status = .faulted .unsupportedOperation 0x00000000#32 ∧ t.pc = 4 ∧ t.x = State.reset.x

/-- The state the host's question starts from is the one a program of that single word reaches: after
`load` into the reset state and two cycles, the word is in ID/EX with EX alone in the window (derived: log
10). -/
def Obligations.PlacedWordIsALoadedProgram : Prop :=
  ∀ (cs : List Char) (s : State), load [some cs] State.reset = .ok s →
    ∃ w : Nat, s.imem.read 0 = BitVec.ofNat 32 w ∧
      Sys2Proof.core.run 2 s = .next (State.reset.withFetchWord 32 w)
end

