-- ==== Sys2Proof/Laws/Operands.lean ====
section
/-! SUPPORT. What the shared operand and address operations give, said once in terms of integers. -/

namespace Sys2Proof.Machine

theorem isAligned_iff_toNat (a : Word) : isAligned a = true ↔ a.toNat % 4 = 0 := by
  unfold isAligned
  rw [decide_eq_true_iff, BitVec.toNat_eq]
  simp [BitVec.extractLsb'_toNat]

theorem isAligned_iff_toInt (a : Word) : isAligned a = true ↔ a.toInt % 4 = 0 := by
  rw [isAligned_iff_toNat, BitVec.toInt_eq_toNat_cond]
  split <;> omega

theorem inDataMemory_iff (a : Word) : inDataMemory a = true ↔ 0 ≤ a.toInt ∧ a.toInt < 500 := by
  unfold inDataMemory dataCells; exact decide_eq_true_iff

theorem inInstructionStore_iff_toInt (a : Word) :
    inInstructionStore a = true ↔ 0 ≤ a.toInt ∧ a.toInt < 800 := by
  unfold inInstructionStore slotCount; rw [decide_eq_true_iff]; omega

theorem inInstructionStore_iff_toNat (a : Word) : inInstructionStore a = true ↔ a.toNat < 800 := by
  rw [inInstructionStore_iff_toInt, BitVec.toInt_eq_toNat_cond]
  have := a.isLt
  split <;> omega

theorem slotIndex_eq {a : Word} (h : a.toNat < 800) : slotIndex a = a.toNat / 4 := by
  unfold slotIndex
  rw [BitVec.toInt_eq_toNat_cond]
  split <;> omega

theorem word32_toInt {n : Int} (h : -2 ^ 31 ≤ n ∧ n < 2 ^ 31) : (word32 n).toInt = n := by
  unfold word32
  rw [BitVec.toInt_ofInt, Int.bmod_def]
  split <;> omega

theorem word32_toNat {n : Int} (h : 0 ≤ n ∧ n < 2 ^ 31) : (word32 n).toNat = n.toNat := by
  unfold word32
  rw [BitVec.toNat_ofInt]
  omega

/-- The checked sum is the sum modulo 2^32, when it is one. -/
theorem add32_eq_some {a b r : Word} : add32 a b = some r ↔ addOverflows a b = false ∧ r = a + b := by
  unfold add32
  cases addOverflows a b <;> simp [eq_comm]

theorem add32_eq_none {a b : Word} : add32 a b = none ↔ addOverflows a b = true := by
  unfold add32
  cases addOverflows a b <;> simp

/-- The effective address is one that passed all three checks (42_loadstore.md R120). -/
theorem effectiveAddress_ok {s : State} {rs : RegIdx} {off : Int} {a : Word}
    (h : effectiveAddress s rs off = .ok a) :
    add32 (fwd s rs) (word32 off) = some a ∧ legalDataAddress a = true := by
  unfold effectiveAddress at h
  split at h
  · cases h
  · next r hr =>
    split at h
    · next ha =>
      split at h
      · next hb => cases h; exact ⟨hr, by simp [legalDataAddress, ha, hb]⟩
      · cases h
    · cases h

/-- J's target is a multiple of 4 whatever pc and the field are. -/
theorem jumpTarget_aligned (pc : Word) (idx : Nat) : isAligned (jumpTarget pc idx) = true := by
  rw [isAligned_iff_toNat, jumpTarget, BitVec.toNat_append]
  simp
  omega

/-- BEQ's target keeps pc a multiple of 4. -/
theorem branchTarget_aligned {pc : Word} {imm : Int} (h : isAligned pc = true)
    (hr : 4 ≤ branchTarget pc imm ∧ branchTarget pc imm < 800) :
    isAligned (word32 (branchTarget pc imm)) = true := by
  rw [isAligned_iff_toInt] at h ⊢
  rw [word32_toInt (by omega)]
  unfold branchTarget at hr ⊢
  omega

end Sys2Proof.Machine
end

