-- ==== Sys2Proof/Laws/State.lean ====
section
/-! SUPPORT. One lemma per field per update of the state: what each shared operation writes, and that it
leaves every other field alone. -/

namespace Sys2Proof.Machine

/-! ### raise -/

section
variable (k : FaultKind) (info : Word) (s : State)

@[simp] theorem raise_x : (raise k info s).x = s.x := rfl
@[simp] theorem raise_pc : (raise k info s).pc = s.pc := rfl
@[simp] theorem raise_dmem : (raise k info s).dmem = s.dmem := rfl
@[simp] theorem raise_imem : (raise k info s).imem = s.imem := rfl
@[simp] theorem raise_ifid : (raise k info s).ifid = s.ifid := rfl
@[simp] theorem raise_idex : (raise k info s).idex = s.idex := rfl
@[simp] theorem raise_exmem : (raise k info s).exmem = s.exmem := rfl
@[simp] theorem raise_memwb : (raise k info s).memwb = s.memwb := rfl
@[simp] theorem raise_window : (raise k info s).window = s.window := rfl
@[simp] theorem raise_status : (raise k info s).status = .faulted k info := rfl
@[simp] theorem raise_cfg : (raise k info s).cfg = s.cfg := rfl
@[simp] theorem raise_drawn : (raise k info s).drawn = s.drawn := rfl

end

/-! ### raiseInEx -/

section
variable (k : FaultKind) (s : State)

@[simp] theorem raiseInEx_x : (raiseInEx k s).x = s.x := rfl
@[simp] theorem raiseInEx_pc : (raiseInEx k s).pc = s.pc := rfl
@[simp] theorem raiseInEx_dmem : (raiseInEx k s).dmem = s.dmem := rfl
@[simp] theorem raiseInEx_imem : (raiseInEx k s).imem = s.imem := rfl
@[simp] theorem raiseInEx_ifid : (raiseInEx k s).ifid = s.ifid := rfl
@[simp] theorem raiseInEx_idex : (raiseInEx k s).idex = s.idex := rfl
@[simp] theorem raiseInEx_exmem : (raiseInEx k s).exmem = s.exmem := rfl
@[simp] theorem raiseInEx_memwb : (raiseInEx k s).memwb = s.memwb := rfl
@[simp] theorem raiseInEx_window : (raiseInEx k s).window = s.window := rfl
@[simp] theorem raiseInEx_status : (raiseInEx k s).status = .faulted k s.idex.instructionWord := rfl
@[simp] theorem raiseInEx_cfg : (raiseInEx k s).cfg = s.cfg := rfl
@[simp] theorem raiseInEx_drawn : (raiseInEx k s).drawn = s.drawn := rfl

end

/-! ### writeExmem -/

section
variable (d : Option RegIdx) (a v : Option Word) (s : State)

@[simp] theorem writeExmem_x : (writeExmem d a v s).x = s.x := rfl
@[simp] theorem writeExmem_pc : (writeExmem d a v s).pc = s.pc := rfl
@[simp] theorem writeExmem_dmem : (writeExmem d a v s).dmem = s.dmem := rfl
@[simp] theorem writeExmem_imem : (writeExmem d a v s).imem = s.imem := rfl
@[simp] theorem writeExmem_ifid : (writeExmem d a v s).ifid = s.ifid := rfl
@[simp] theorem writeExmem_idex : (writeExmem d a v s).idex = s.idex := rfl
@[simp] theorem writeExmem_exmem : (writeExmem d a v s).exmem = 
    { valid := true, opcode := s.idex.opcode, registerTarget := d,
      memoryTarget := a.getD (Config.freeAddress s.drawn), writeVal := v.getD (Config.freeWriteVal s.drawn),
      instructionWord := s.idex.instructionWord } := rfl
@[simp] theorem writeExmem_memwb : (writeExmem d a v s).memwb = s.memwb := rfl
@[simp] theorem writeExmem_window : (writeExmem d a v s).window = s.window := rfl
@[simp] theorem writeExmem_status : (writeExmem d a v s).status = s.status := rfl
@[simp] theorem writeExmem_cfg : (writeExmem d a v s).cfg = s.cfg := rfl
@[simp] theorem writeExmem_drawn : (writeExmem d a v s).drawn = s.drawn + 1 := rfl

end

/-! ### transferTo -/

section
variable (t : Word) (s : State)

@[simp] theorem transferTo_x : (transferTo t s).x = s.x := rfl
@[simp] theorem transferTo_pc : (transferTo t s).pc = t := rfl
@[simp] theorem transferTo_dmem : (transferTo t s).dmem = s.dmem := rfl
@[simp] theorem transferTo_imem : (transferTo t s).imem = s.imem := rfl
@[simp] theorem transferTo_ifid : (transferTo t s).ifid = s.ifid := rfl
@[simp] theorem transferTo_idex : (transferTo t s).idex = s.idex := rfl
@[simp] theorem transferTo_exmem : (transferTo t s).exmem = 
    { valid := true, opcode := s.idex.opcode, registerTarget := none,
      memoryTarget := Config.freeAddress s.drawn, writeVal := Config.freeWriteVal s.drawn,
      instructionWord := s.idex.instructionWord } := rfl
@[simp] theorem transferTo_memwb : (transferTo t s).memwb = s.memwb := rfl
@[simp] theorem transferTo_window : (transferTo t s).window = s.window := rfl
@[simp] theorem transferTo_status : (transferTo t s).status = s.status := rfl
@[simp] theorem transferTo_cfg : (transferTo t s).cfg = s.cfg := rfl
@[simp] theorem transferTo_drawn : (transferTo t s).drawn = s.drawn + 1 := rfl

end

/-! ### writeMemwb -/

section
variable (d : Option RegIdx) (v : Option Word) (s : State)

@[simp] theorem writeMemwb_x : (writeMemwb d v s).x = s.x := rfl
@[simp] theorem writeMemwb_pc : (writeMemwb d v s).pc = s.pc := rfl
@[simp] theorem writeMemwb_dmem : (writeMemwb d v s).dmem = s.dmem := rfl
@[simp] theorem writeMemwb_imem : (writeMemwb d v s).imem = s.imem := rfl
@[simp] theorem writeMemwb_ifid : (writeMemwb d v s).ifid = s.ifid := rfl
@[simp] theorem writeMemwb_idex : (writeMemwb d v s).idex = s.idex := rfl
@[simp] theorem writeMemwb_exmem : (writeMemwb d v s).exmem = s.exmem := rfl
@[simp] theorem writeMemwb_memwb : (writeMemwb d v s).memwb = 
    { freeLatch s.drawn s.exmem.instructionWord with
      opcode := s.exmem.opcode, registerTarget := d, writeVal := v.getD (Config.freeWriteVal s.drawn) } := rfl
@[simp] theorem writeMemwb_window : (writeMemwb d v s).window = s.window := rfl
@[simp] theorem writeMemwb_status : (writeMemwb d v s).status = s.status := rfl
@[simp] theorem writeMemwb_cfg : (writeMemwb d v s).cfg = s.cfg := rfl
@[simp] theorem writeMemwb_drawn : (writeMemwb d v s).drawn = s.drawn + 1 := rfl

end

/-! ### writeIdex -/

section
variable (w : Word) (s : State)

@[simp] theorem writeIdex_x : (writeIdex w s).x = s.x := rfl
@[simp] theorem writeIdex_pc : (writeIdex w s).pc = s.pc := rfl
@[simp] theorem writeIdex_dmem : (writeIdex w s).dmem = s.dmem := rfl
@[simp] theorem writeIdex_imem : (writeIdex w s).imem = s.imem := rfl
@[simp] theorem writeIdex_ifid : (writeIdex w s).ifid = s.ifid := rfl
@[simp] theorem writeIdex_idex : (writeIdex w s).idex = { freeLatch s.drawn w with opcode := opcodeField w } := rfl
@[simp] theorem writeIdex_exmem : (writeIdex w s).exmem = s.exmem := rfl
@[simp] theorem writeIdex_memwb : (writeIdex w s).memwb = s.memwb := rfl
@[simp] theorem writeIdex_window : (writeIdex w s).window = s.window := rfl
@[simp] theorem writeIdex_status : (writeIdex w s).status = s.status := rfl
@[simp] theorem writeIdex_cfg : (writeIdex w s).cfg = s.cfg := rfl
@[simp] theorem writeIdex_drawn : (writeIdex w s).drawn = s.drawn + 1 := rfl

end

/-! ### writeIfid -/

section
variable (w : Word) (s : State)

@[simp] theorem writeIfid_x : (writeIfid w s).x = s.x := rfl
@[simp] theorem writeIfid_pc : (writeIfid w s).pc = s.pc := rfl
@[simp] theorem writeIfid_dmem : (writeIfid w s).dmem = s.dmem := rfl
@[simp] theorem writeIfid_imem : (writeIfid w s).imem = s.imem := rfl
@[simp] theorem writeIfid_ifid : (writeIfid w s).ifid = freeLatch s.drawn w := rfl
@[simp] theorem writeIfid_idex : (writeIfid w s).idex = s.idex := rfl
@[simp] theorem writeIfid_exmem : (writeIfid w s).exmem = s.exmem := rfl
@[simp] theorem writeIfid_memwb : (writeIfid w s).memwb = s.memwb := rfl
@[simp] theorem writeIfid_window : (writeIfid w s).window = s.window := rfl
@[simp] theorem writeIfid_status : (writeIfid w s).status = s.status := rfl
@[simp] theorem writeIfid_cfg : (writeIfid w s).cfg = s.cfg := rfl
@[simp] theorem writeIfid_drawn : (writeIfid w s).drawn = s.drawn + 1 := rfl

end

/-! ### seed -/

section
variable (s : State)

@[simp] theorem seed_x : (seed s).x = s.x := rfl
@[simp] theorem seed_pc : (seed s).pc = s.pc := rfl
@[simp] theorem seed_dmem : (seed s).dmem = s.dmem := rfl
@[simp] theorem seed_imem : (seed s).imem = s.imem := rfl
@[simp] theorem seed_ifid : (seed s).ifid = s.ifid.invalidate := rfl
@[simp] theorem seed_idex : (seed s).idex = s.idex.invalidate := rfl
@[simp] theorem seed_exmem : (seed s).exmem = s.exmem.invalidate := rfl
@[simp] theorem seed_memwb : (seed s).memwb = s.memwb.invalidate := rfl
@[simp] theorem seed_window : (seed s).window = some { lo := 1, hi := 1 } := rfl
@[simp] theorem seed_status : (seed s).status = s.status := rfl
@[simp] theorem seed_cfg : (seed s).cfg = s.cfg := rfl
@[simp] theorem seed_drawn : (seed s).drawn = s.drawn := rfl

end

/-! ### writeRegister -/

section
variable (d : Option RegIdx) (v : Word) (s : State)

@[simp] theorem writeRegister_pc : (writeRegister d v s).pc = s.pc := by
  unfold writeRegister; split <;> [rfl; (split <;> rfl)]
@[simp] theorem writeRegister_dmem : (writeRegister d v s).dmem = s.dmem := by
  unfold writeRegister; split <;> [rfl; (split <;> rfl)]
@[simp] theorem writeRegister_imem : (writeRegister d v s).imem = s.imem := by
  unfold writeRegister; split <;> [rfl; (split <;> rfl)]
@[simp] theorem writeRegister_ifid : (writeRegister d v s).ifid = s.ifid := by
  unfold writeRegister; split <;> [rfl; (split <;> rfl)]
@[simp] theorem writeRegister_idex : (writeRegister d v s).idex = s.idex := by
  unfold writeRegister; split <;> [rfl; (split <;> rfl)]
@[simp] theorem writeRegister_exmem : (writeRegister d v s).exmem = s.exmem := by
  unfold writeRegister; split <;> [rfl; (split <;> rfl)]
@[simp] theorem writeRegister_memwb : (writeRegister d v s).memwb = s.memwb := by
  unfold writeRegister; split <;> [rfl; (split <;> rfl)]
@[simp] theorem writeRegister_window : (writeRegister d v s).window = s.window := by
  unfold writeRegister; split <;> [rfl; (split <;> rfl)]
@[simp] theorem writeRegister_status : (writeRegister d v s).status = s.status := by
  unfold writeRegister; split <;> [rfl; (split <;> rfl)]
@[simp] theorem writeRegister_cfg : (writeRegister d v s).cfg = s.cfg := by
  unfold writeRegister; split <;> [rfl; (split <;> rfl)]
@[simp] theorem writeRegister_drawn : (writeRegister d v s).drawn = s.drawn := by
  unfold writeRegister; split <;> [rfl; (split <;> rfl)]

/-- WB's register write, register by register (40_pipeline.md R94). -/
theorem writeRegister_x (r : RegIdx) :
    (writeRegister d v s).x[r.val] = if d = some r ∧ r ≠ 0 then v else s.x[r.val] := by
  unfold writeRegister
  split
  · simp
  · next q =>
    by_cases hq : q = 0
    · subst hq
      by_cases hr : r = 0
      · simp [hr]
      · simp [Ne.symm hr]
    · simp only [if_neg hq, Option.some.injEq]
      by_cases hqr : q = r
      · subst hqr; simp [hq]
      · have h : q.val ≠ r.val := fun h => hqr (Fin.ext h)
        simp [hqr, h]

end

/-! ### Latches -/

section
variable (n : Nat) (w : Word) (l : Latch)

@[simp] theorem freeLatch_valid : (freeLatch n w).valid = true := rfl
@[simp] theorem freeLatch_instructionWord : (freeLatch n w).instructionWord = w := rfl
@[simp] theorem invalidate_valid : l.invalidate.valid = false := rfl
@[simp] theorem invalidate_registerTarget : l.invalidate.registerTarget = none := rfl
@[simp] theorem invalidate_opcode : l.invalidate.opcode = l.opcode := rfl
@[simp] theorem invalidate_memoryTarget : l.invalidate.memoryTarget = l.memoryTarget := rfl
@[simp] theorem invalidate_writeVal : l.invalidate.writeVal = l.writeVal := rfl
@[simp] theorem invalidate_instructionWord : l.invalidate.instructionWord = l.instructionWord := rfl

end

end Sys2Proof.Machine
end

