-- ==== Sys2Proof/Laws/Exec.lean ====
section
/-! SUPPORT. Everything EX can do: each instruction either raises, writing nothing but the status, or writes
EX/MEM and perhaps pc. -/

namespace Sys2Proof.Machine

/-- The instructions that may write pc (43_control.md). -/
def isTransfer : Instr → Bool
  | .beq _ _ _ => true
  | .j _ => true
  | .jr _ => true
  | _ => false

/-- The instructions that use data memory (42_loadstore.md). -/
def isLoadStore : Instr → Bool
  | .lw _ _ _ => true
  | .sw _ _ _ => true
  | _ => false

/-- A handler that does not raise: destination `d`, address `a`, value `v`, and pc `p` (40_pipeline.md R92). -/
structure Completes (i : Instr) (s : State) (d : Option RegIdx) (a v : Option Word) (p : Word) : Prop where
  result      : exec i s = .next (writeExmem d a v { s with pc := p })
  destination : d ≠ some 0
  pcKept      : isTransfer i = false → p = s.pc
  pcAligned   : isAligned s.pc = true → isAligned p = true
  address     : isLoadStore i = true → ∃ b, a = some b ∧ legalDataAddress b = true

theorem finishAlu_cases (d : RegIdx) (r : Option Word) (s : State) :
    (∃ k, finishAlu d r s = .next (raiseInEx k s)) ∨
    ∃ v, d ≠ 0 ∧ finishAlu d r s = .next (writeExmem (some d) none (some v) s) := by
  unfold finishAlu
  split
  · exact .inl ⟨_, rfl⟩
  · next hd =>
    cases r with
    | none => exact .inl ⟨_, rfl⟩
    | some v => exact .inr ⟨v, hd, rfl⟩

theorem completes_alu {i : Instr} {d : RegIdx} {r : Option Word} {s : State}
    (h : exec i s = finishAlu d r s) (hi : isLoadStore i = false) :
    (∃ k, exec i s = .next (raiseInEx k s)) ∨ ∃ d a v p, Completes i s d a v p := by
  rcases finishAlu_cases d r s with ⟨k, hk⟩ | ⟨v, hd, hv⟩
  · exact .inl ⟨k, h.trans hk⟩
  · exact .inr ⟨some d, none, some v, s.pc,
      { result := h.trans hv, destination := by simpa using hd, pcKept := fun _ => rfl,
        pcAligned := id, address := by simp [hi] }⟩

theorem completes_transfer {i : Instr} {s : State} {t : Word} (h : exec i s = .next (transferTo t s))
    (hi : isLoadStore i = false) (ht : isTransfer i = true)
    (ha : isAligned s.pc = true → isAligned t = true) : Completes i s none none none t :=
  { result := h, destination := by simp, pcKept := by simp [ht], pcAligned := ha, address := by simp [hi] }

/-- Every instruction, at every state, either raises in EX or completes (40_pipeline.md R92). -/
theorem exec_cases (i : Instr) (s : State) :
    (∃ k, exec i s = .next (raiseInEx k s)) ∨ ∃ d a v p, Completes i s d a v p := by
  cases i with
  | add rd rs rt => exact completes_alu (d := rd) (r := add32 (fwd s rs) (fwd s rt)) rfl rfl
  | addi rt rs imm => exact completes_alu (d := rt) (r := add32 (fwd s rs) (word32 imm)) rfl rfl
  | and rd rs rt => exact completes_alu (d := rd) (r := some (fwd s rs &&& fwd s rt)) rfl rfl
  | andi rt rs imm =>
    exact completes_alu (d := rt) (r := some (fwd s rs &&& andiOperand s.cfg.andiExt imm)) rfl rfl
  | lw rt off rs =>
    by_cases hrt : rt = 0
    · exact .inl ⟨.registerZeroWrite, by simp [exec, execLw, hrt]⟩
    · cases he : effectiveAddress s rs off with
      | error k => exact .inl ⟨k, by simp [exec, execLw, hrt, he]⟩
      | ok a =>
        exact .inr ⟨some rt, some a, none, s.pc,
          { result := by simp [exec, execLw, hrt, he], destination := by simpa using hrt,
            pcKept := fun _ => rfl, pcAligned := id,
            address := fun _ => ⟨a, rfl, (effectiveAddress_ok he).2⟩ }⟩
  | sw rt off rs =>
    cases he : effectiveAddress s rs off with
    | error k => exact .inl ⟨k, by simp [exec, execSw, he]⟩
    | ok a =>
      exact .inr ⟨none, some a, some (fwd s rt), s.pc,
        { result := by simp [exec, execSw, he], destination := by simp,
          pcKept := fun _ => rfl, pcAligned := id,
          address := fun _ => ⟨a, rfl, (effectiveAddress_ok he).2⟩ }⟩
  | beq rs rt imm =>
    by_cases heq : fwd s rs = fwd s rt
    · by_cases hr : branchTarget s.pc imm < 4 ∨ 4 * (slotCount : Int) ≤ branchTarget s.pc imm
      · exact .inl ⟨.addressOutOfBounds, by simp only [exec, execBeq, if_pos heq, if_pos hr]⟩
      · refine .inr ⟨none, none, none, word32 (branchTarget s.pc imm), completes_transfer
          (by simp only [exec, execBeq, if_pos heq, if_neg hr]) rfl rfl (fun ha => branchTarget_aligned ha ?_)⟩
        simp only [slotCount] at hr
        omega
    · exact .inr ⟨none, none, none, s.pc,
        { result := by simp only [exec, execBeq, if_neg heq], destination := by simp,
          pcKept := fun _ => rfl, pcAligned := id, address := by simp [isLoadStore] }⟩
  | j idx =>
    by_cases hl : jumpLimit s.cfg.jLimit ≤ (jumpTarget s.pc idx).toNat
    · exact .inl ⟨.addressOutOfBounds, by simp only [exec, execJ, if_pos hl]⟩
    · exact .inr ⟨none, none, none, jumpTarget s.pc idx,
        completes_transfer (by simp only [exec, execJ, if_neg hl]) rfl rfl (fun _ => jumpTarget_aligned _ _)⟩
  | jr rs =>
    by_cases ha : isAligned (fwd s rs) = true
    · exact .inr ⟨none, none, none, fwd s rs,
        completes_transfer (by simp only [exec, execJr, if_pos ha]) rfl rfl (fun _ => ha)⟩
    · exact .inl ⟨.unalignedAddress, by simp only [exec, execJr, if_neg ha]⟩

end Sys2Proof.Machine
end

