-- ==== Sys2Proof/Laws/Memory.lean ====
section
/-! SUPPORT. The laws of the cell memory: a read after a write, the canonical form, and that equal reads are
equal memories. -/

namespace Sys2Proof.Machine

@[simp] theorem Memory.read_nil (a : Nat) : Memory.read [] a = blankCell := rfl

theorem Memory.read_cons (b : Nat) (u : Word) (m : Memory) (a : Nat) :
    Memory.read ((b, u) :: m) a = if a = b then u else m.read a := rfl

/-- An index no listing names reads blank. -/
theorem Memory.read_of_unlisted {m : Memory} {a : Nat} (h : ∀ c ∈ m, c.1 ≠ a) : m.read a = blankCell := by
  induction m with
  | nil => rfl
  | cons c m ih =>
    rw [Memory.read_cons, if_neg (fun e => h c (by simp) e.symm)]
    exact ih (fun c hc => h c (by simp [hc]))

/-- Below every listing a memory reads blank. -/
theorem Memory.read_below {m : Memory} {k a : Nat} (h : ∀ c ∈ m, k < c.1) (ha : a ≤ k) :
    m.read a = blankCell :=
  Memory.read_of_unlisted (fun c hc e => by have := h c hc; omega)

theorem Memory.read_removeCell (m : Memory) (a b : Nat) :
    (m.removeCell a).read b = if b = a then blankCell else m.read b := by
  induction m with
  | nil => simp [Memory.removeCell]
  | cons c m ih =>
    obtain ⟨k, u⟩ := c
    unfold Memory.removeCell at ih ⊢
    by_cases hk : k = a
    · subst hk
      simp only [List.filter_cons, bne_self_eq_false, Bool.false_eq_true, if_false, ih, Memory.read_cons]
      split <;> rfl
    · simp only [List.filter_cons, bne_iff_ne, ne_eq, hk, not_false_eq_true, if_true, Memory.read_cons, ih]
      by_cases hb : b = k
      · subst hb; simp [hk]
      · simp [hb]

theorem Memory.read_insertCell (m : Memory) (a b : Nat) (v : Word) (h : ∀ c ∈ m, c.1 ≠ a) :
    (m.insertCell a v).read b = if b = a then v else m.read b := by
  induction m with
  | nil => rfl
  | cons c m ih =>
    obtain ⟨k, u⟩ := c
    have hk : k ≠ a := h (k, u) (by simp)
    unfold Memory.insertCell
    split
    · rfl
    · rw [Memory.read_cons, ih (fun c hc => h c (by simp [hc])), Memory.read_cons]
      by_cases hb : b = k
      · subst hb; simp [hk]
      · simp [hb]

theorem Memory.ne_of_mem_removeCell {m : Memory} {a : Nat} : ∀ c ∈ m.removeCell a, c.1 ≠ a := by
  intro c hc
  simpa using (List.mem_filter.mp hc).2

/-- Reading after a write gives the value at that index and the old cell everywhere else. -/
theorem Memory.read_write (m : Memory) (a b : Nat) (v : Word) :
    (m.write a v).read b = if b = a then v else m.read b := by
  unfold Memory.write
  split
  · next hv => rw [Memory.read_removeCell, hv]
  · rw [Memory.read_insertCell _ _ _ _ Memory.ne_of_mem_removeCell, Memory.read_removeCell]
    split <;> rfl

/-- A listing after a write is the new one or an old one of another index. -/
theorem Memory.mem_write {m : Memory} {a : Nat} {v : Word} {c : Nat × Word} (h : c ∈ m.write a v) :
    (c = (a, v) ∧ v ≠ blankCell) ∨ (c ∈ m ∧ c.1 ≠ a) := by
  have key : ∀ n : Memory, c ∈ n.insertCell a v → c = (a, v) ∨ c ∈ n := by
    intro n
    induction n with
    | nil => simp [Memory.insertCell]
    | cons d n ih =>
      obtain ⟨k, u⟩ := d
      unfold Memory.insertCell
      split
      · simp
      · simp only [List.mem_cons]
        rintro (h | h)
        · exact .inr (.inl h)
        · exact (ih h).imp id .inr
  unfold Memory.write at h
  split at h
  · exact .inr ⟨(List.mem_filter.mp h).1, Memory.ne_of_mem_removeCell c h⟩
  · next hv =>
    rcases key _ h with h | h
    · exact .inl ⟨h, hv⟩
    · exact .inr ⟨(List.mem_filter.mp h).1, Memory.ne_of_mem_removeCell c h⟩

theorem Memory.pairwise_insertCell {m : Memory} {a : Nat} {v : Word}
    (hm : m.Pairwise (fun p q => p.1 < q.1)) (h : ∀ c ∈ m, c.1 ≠ a) :
    (m.insertCell a v).Pairwise (fun p q => p.1 < q.1) := by
  induction m with
  | nil => simp [Memory.insertCell]
  | cons d m ih =>
    obtain ⟨k, u⟩ := d
    have hk : k ≠ a := h (k, u) (by simp)
    rw [List.pairwise_cons] at hm
    unfold Memory.insertCell
    split
    · next hlt =>
      refine List.pairwise_cons.mpr ⟨?_, List.pairwise_cons.mpr hm⟩
      intro c hc
      rcases List.mem_cons.mp hc with rfl | hc
      · exact hlt
      · exact lt_trans hlt (hm.1 c hc)
    · refine List.pairwise_cons.mpr ⟨?_, ih hm.2 (fun c hc => h c (by simp [hc]))⟩
      intro c hc
      have hin : c = (a, v) ∨ c ∈ m := by
        clear ih h hm
        induction m with
        | nil => simpa [Memory.insertCell] using hc
        | cons d m ihm =>
          obtain ⟨k', u'⟩ := d
          unfold Memory.insertCell at hc
          split at hc
          · simpa using hc
          · rcases List.mem_cons.mp hc with h | h
            · simp [h]
            · exact (ihm h).imp id (by simp_all)
      rcases hin with rfl | hin
      · show k < a; omega
      · exact hm.1 c hin

/-- Every write keeps the canonical form. -/
theorem Memory.wf_write {m : Memory} (h : m.wf) (a : Nat) (v : Word) : (m.write a v).wf := by
  refine ⟨?_, fun c hc => ?_⟩
  · unfold Memory.write
    have hr : (m.removeCell a).Pairwise (fun p q => p.1 < q.1) := List.Pairwise.filter _ h.1
    split
    · exact hr
    · exact Memory.pairwise_insertCell hr Memory.ne_of_mem_removeCell
  · rcases Memory.mem_write hc with ⟨rfl, hv⟩ | ⟨hm, -⟩
    · exact hv
    · exact h.2 c hm

/-- A write inside the bounds keeps every listing inside them. -/
theorem Memory.within_write {n : Nat} {m : Memory} (h : m.within n) {a : Nat} (ha : a < n) (v : Word) :
    (m.write a v).within n := by
  intro c hc
  rcases Memory.mem_write hc with ⟨rfl, -⟩ | ⟨hm, -⟩
  · exact ha
  · exact h c hm

/-- The canonical form determines the memory: equal reads are equal data. -/
theorem Memory.eq_of_read_eq {m n : Memory} (hm : m.wf) (hn : n.wf) (h : ∀ a, m.read a = n.read a) :
    m = n := by
  induction m generalizing n with
  | nil =>
    cases n with
    | nil => rfl
    | cons d n =>
      have := h d.1
      rw [Memory.read_nil, Memory.read_cons, if_pos rfl] at this
      exact absurd this.symm (hn.2 d (by simp))
  | cons c m ih =>
    cases n with
    | nil =>
      have := h c.1
      rw [Memory.read_nil, Memory.read_cons, if_pos rfl] at this
      exact absurd this (hm.2 c (by simp))
    | cons d n =>
      obtain ⟨k, u⟩ := c
      obtain ⟨l, v⟩ := d
      have hmp := List.pairwise_cons.mp hm.1
      have hnp := List.pairwise_cons.mp hn.1
      have hu : u ≠ blankCell := hm.2 (k, u) (by simp)
      have hv : v ≠ blankCell := hn.2 (l, v) (by simp)
      have unlistedN : ∀ a, a ≤ l → Memory.read n a = blankCell := fun a ha =>
        Memory.read_below (fun c hc => hnp.1 c hc) ha
      have unlistedM : ∀ a, a ≤ k → Memory.read m a = blankCell := fun a ha =>
        Memory.read_below (fun c hc => hmp.1 c hc) ha
      have hkl : k = l := by
        rcases Nat.lt_trichotomy k l with hlt | rfl | hlt
        · have := h k
          rw [Memory.read_cons, if_pos rfl, Memory.read_cons, if_neg (by omega), unlistedN k (by omega)] at this
          exact absurd this hu
        · rfl
        · have := h l
          rw [Memory.read_cons, if_neg (by omega), Memory.read_cons, if_pos rfl, unlistedM l (by omega)] at this
          exact absurd this.symm hv
      subst hkl
      have huv : u = v := by simpa [Memory.read_cons] using h k
      subst huv
      congr 1
      refine ih ⟨hmp.2, fun c hc => hm.2 c (by simp [hc])⟩ ⟨hnp.2, fun c hc => hn.2 c (by simp [hc])⟩ ?_
      intro a
      by_cases ha : a = k
      · subst ha; rw [unlistedM a (le_refl a), unlistedN a (le_refl a)]
      · simpa [Memory.read_cons, ha] using h a

/-! ### Consecutive slots (`load`) -/

theorem storeSlots_wf {m : Memory} (h : m.wf) (k : Nat) (ws : List Word) : (storeSlots m k ws).wf := by
  induction ws generalizing m k with
  | nil => exact h
  | cons w ws ih => exact ih (Memory.wf_write h k w) (k + 1)

theorem storeSlots_within {n : Nat} {m : Memory} (h : m.within n) {k : Nat} {ws : List Word}
    (hk : k + ws.length ≤ n) : (storeSlots m k ws).within n := by
  induction ws generalizing m k with
  | nil => exact h
  | cons w ws ih =>
    simp only [List.length_cons] at hk
    exact ih (Memory.within_write h (by omega) w) (by omega)

/-- What the slots read after a run of words is stored from slot `k` on. -/
theorem storeSlots_read (m : Memory) (k : Nat) (ws : List Word) (a : Nat) :
    (storeSlots m k ws).read a = if h : k ≤ a ∧ a - k < ws.length then ws[a - k]'h.2 else m.read a := by
  induction ws generalizing m k with
  | nil => simp [storeSlots]
  | cons w ws ih =>
    rw [storeSlots, ih, Memory.read_write]
    by_cases ha : a = k
    · subst ha; simp
    · by_cases hlt : k + 1 ≤ a
      · obtain ⟨d, rfl⟩ := Nat.exists_eq_add_of_le hlt
        have e1 : k + 1 + d - (k + 1) = d := by omega
        have e2 : k + 1 + d - k = d + 1 := by omega
        simp only [e1, e2, List.length_cons]
        by_cases hd : d < ws.length
        · simp [hd, List.getElem_cons_succ, show k ≤ k + 1 + d by omega]
        · simp [hd, ha]
      · have : ¬ k ≤ a := by omega
        simp [ha, hlt, this]

end Sys2Proof.Machine
end

