-- ==== Sys2Proof/Laws/Stages.lean ====
section
/-! SUPPORT. One lemma per stage: everything it can do, and what it leaves alone; and the parts of the cycle
before and after EX. -/

namespace Sys2Proof.Machine

/-! ### Sequencing -/

@[simp] theorem andThen_next (s : State) (f : State → Host.Outcome State Fault Refusal) :
    andThen (.next s) f = f s := rfl

theorem andThen_eq_next {o : Host.Outcome State Fault Refusal} {f : State → Host.Outcome State Fault Refusal}
    {t : State} : andThen o f = .next t ↔ ∃ s, o = .next s ∧ f s = .next t := by
  cases o <;> simp [andThen]

section
variable {w : Window} {n : Nat} {f : State → Host.Outcome State Fault Refusal} {s : State}

theorem runStage_run (hs : s.status = .ok) (hw : w.has n) : runStage w n f s = f s := by
  unfold runStage; rw [if_pos hs, if_pos hw]

theorem runStage_skip (hw : ¬ w.has n) : runStage w n f s = .next s := by
  unfold runStage; rw [if_neg hw]; split <;> rfl

theorem runStage_faulted (hs : s.status ≠ .ok) : runStage w n f s = .next s := by
  unfold runStage; rw [if_neg hs]

end

/-! ### The read of the instruction store -/

theorem readSlot_word {s : State} (ha : isAligned s.pc = true) (hb : inInstructionStore s.pc = true) :
    readSlot s = .word (s.imem.read (slotIndex s.pc)) := by
  unfold readSlot; rw [if_pos ha, if_pos hb]

theorem readSlot_outOfBounds {s : State} (ha : isAligned s.pc = true) (hb : ¬ inInstructionStore s.pc = true) :
    readSlot s = .outOfBounds := by
  unfold readSlot; rw [if_pos ha, if_neg hb]

theorem readSlot_eq_word {s : State} {v : Word} (h : readSlot s = .word v) :
    isAligned s.pc = true ∧ inInstructionStore s.pc = true ∧ v = s.imem.read (slotIndex s.pc) := by
  unfold readSlot at h
  split at h
  · next ha =>
    split at h
    · next hb => cases h; exact ⟨ha, hb, rfl⟩
    · cases h
  · cases h

/-! ### MEM -/

/-- What MEM does to data memory: the store of a SW and nothing else (40_pipeline.md R93). -/
def memAfter (s : State) : Memory :=
  if s.exmem.opcode = 43#6 then s.dmem.write (cellIndex s.exmem.memoryTarget) s.exmem.writeVal else s.dmem

/-- The destination MEM passes on (40_pipeline.md R93). -/
def memTarget (s : State) : Option RegIdx := if s.exmem.opcode = 43#6 then none else s.exmem.registerTarget

/-- The value MEM passes on; `none` is a free value (40_pipeline.md R93). -/
def memValue (s : State) : Option Word :=
  if s.exmem.opcode = 35#6 then some (s.dmem.read (cellIndex s.exmem.memoryTarget))
  else if s.exmem.opcode = 43#6 then none else some s.exmem.writeVal

/-- MEM answers a next state exactly when its access, if it has one, is at a checked address. -/
theorem memStage_eq (s : State) (h : s.exmem.isAccess → legalDataAddress s.exmem.memoryTarget = true) :
    memStage s = .next (writeMemwb (memTarget s) (memValue s) { s with dmem := memAfter s }) := by
  unfold memStage memTarget memValue memAfter
  by_cases h35 : s.exmem.opcode = 35#6
  · have h43 : s.exmem.opcode ≠ 43#6 := by rw [h35]; decide
    simp only [if_pos h35, if_pos (h (.inl h35)), if_neg h43]
  · by_cases h43 : s.exmem.opcode = 43#6
    · simp only [if_neg h35, if_pos h43, if_pos (h (.inr h43))]
    · simp only [if_neg h35, if_neg h43]

theorem memStage_next {s t : State} (h : memStage s = .next t) :
    (s.exmem.isAccess → legalDataAddress s.exmem.memoryTarget = true) ∧
    t = writeMemwb (memTarget s) (memValue s) { s with dmem := memAfter s } := by
  have hl : s.exmem.isAccess → legalDataAddress s.exmem.memoryTarget = true := by
    intro ha
    by_contra hn
    unfold memStage at h
    rcases ha with ha | ha
    · simp only [if_pos ha, if_neg hn] at h; cases h
    · have h35 : s.exmem.opcode ≠ 35#6 := by rw [ha]; decide
      simp only [if_neg h35, if_pos ha, if_neg hn] at h; cases h
  refine ⟨hl, ?_⟩
  rw [memStage_eq s hl] at h
  exact (Host.Outcome.next.inj h).symm

/-! ### The part of the cycle before EX -/

/-- What WB and MEM of one cycle leave alone. -/
structure KeptBeforeEx (s t : State) : Prop where
  pc     : t.pc = s.pc
  imem   : t.imem = s.imem
  ifid   : t.ifid = s.ifid
  idex   : t.idex = s.idex
  exmem  : t.exmem = s.exmem
  window : t.window = s.window
  status : t.status = s.status
  cfg    : t.cfg = s.cfg

/-- The state WB leaves (40_pipeline.md R94). -/
def afterWb (w : Window) (s : State) : State :=
  if w.has 5 then writeRegister s.memwb.registerTarget s.memwb.writeVal s else s

/-- The state WB and MEM leave (40_pipeline.md R93, R94). -/
def afterMem (w : Window) (s : State) : State :=
  if w.has 4 then
    writeMemwb (memTarget s) (memValue s) { afterWb w s with dmem := memAfter s }
  else afterWb w s

theorem afterWb_status (w : Window) (s : State) : (afterWb w s).status = s.status := by
  unfold afterWb; split <;> simp

theorem runStage_wb (w : Window) (s : State) (hs : s.status = .ok) :
    runStage w 5 wbStage s = .next (afterWb w s) := by
  unfold afterWb
  split
  · next h => rw [runStage_run hs h, wbStage]
  · next h => exact runStage_skip h

theorem afterWb_kept (w : Window) (s : State) :
    (afterWb w s).dmem = s.dmem ∧ (afterWb w s).exmem = s.exmem ∧ (afterWb w s).memwb = s.memwb ∧
    (afterWb w s).drawn = s.drawn := by
  unfold afterWb; split <;> simp

theorem afterMem_kept (w : Window) (s : State) : KeptBeforeEx s (afterMem w s) := by
  constructor <;> · unfold afterMem afterWb; split <;> split <;> simp

/-- WB and MEM run to the state `afterMem`, given that MEM's access is a checked one. -/
theorem beforeEx_eq (w : Window) (s : State) (hs : s.status = .ok)
    (h : w.has 4 → s.exmem.isAccess → legalDataAddress s.exmem.memoryTarget = true) :
    beforeEx w s = .next (afterMem w s) := by
  obtain ⟨hd, he, -, hn⟩ := afterWb_kept w s
  unfold beforeEx
  rw [runStage_wb w s hs, andThen_next]
  by_cases h4 : w.has 4
  · rw [runStage_run ((afterWb_status w s).trans hs) h4, memStage_eq _ (by rw [he]; exact h h4)]
    simp only [afterMem, if_pos h4, memTarget, memValue, memAfter, he, hd]
  · rw [runStage_skip h4, afterMem, if_neg h4]

theorem beforeEx_next {w : Window} {s t : State} (hs : s.status = .ok) (h : beforeEx w s = .next t) :
    (w.has 4 → s.exmem.isAccess → legalDataAddress s.exmem.memoryTarget = true) ∧ t = afterMem w s := by
  have hl : w.has 4 → s.exmem.isAccess → legalDataAddress s.exmem.memoryTarget = true := by
    intro h4
    obtain ⟨hd, he, -, -⟩ := afterWb_kept w s
    unfold beforeEx at h
    rw [runStage_wb w s hs, andThen_next, runStage_run ((afterWb_status w s).trans hs) h4] at h
    rw [← he]
    exact (memStage_next h).1
  refine ⟨hl, ?_⟩
  rw [beforeEx_eq w s hs hl] at h
  exact (Host.Outcome.next.inj h).symm

/-- The registers after WB and MEM (40_pipeline.md R94). -/
theorem afterMem_x (w : Window) (s : State) (r : RegIdx) :
    (afterMem w s).x[r.val] =
      if w.has 5 ∧ s.memwb.registerTarget = some r ∧ r ≠ 0 then s.memwb.writeVal else s.x[r.val] := by
  have hx : (afterMem w s).x = (afterWb w s).x := by unfold afterMem; split <;> simp
  rw [hx]
  unfold afterWb
  by_cases h5 : w.has 5
  · rw [if_pos h5, writeRegister_x]
    exact if_congr ⟨fun h => ⟨h5, h⟩, fun h => h.2⟩ rfl rfl
  · rw [if_neg h5, if_neg (fun h => h5 h.1)]

theorem afterMem_dmem (w : Window) (s : State) :
    (afterMem w s).dmem = if w.has 4 then memAfter s else s.dmem := by
  unfold afterMem
  split
  · simp
  · exact (afterWb_kept w s).1

theorem afterMem_memwb (w : Window) (s : State) (h : w.has 4) :
    (afterMem w s).memwb.valid = true ∧ (afterMem w s).memwb.opcode = s.exmem.opcode ∧
    (afterMem w s).memwb.instructionWord = s.exmem.instructionWord ∧
    (afterMem w s).memwb.registerTarget = memTarget s ∧
    (∀ v, memValue s = some v → (afterMem w s).memwb.writeVal = v) := by
  obtain ⟨-, he, -, -⟩ := afterWb_kept w s
  unfold afterMem
  rw [if_pos h]
  simp only [writeMemwb_memwb, freeLatch_valid, freeLatch_instructionWord, he, true_and]
  intro v hv
  simp [hv]

theorem afterMem_memwb_skip (w : Window) (s : State) (h : ¬ w.has 4) : (afterMem w s).memwb = s.memwb := by
  unfold afterMem; rw [if_neg h]; exact (afterWb_kept w s).2.2.1

/-! ### EX -/

/-- Everything EX can do (40_pipeline.md R90, R92). -/
inductive ExEffect (s : State) : State → Prop where
  | raises (k : FaultKind) : ExEffect s (raiseInEx k s)
  | writes (i : Instr) (d : Option RegIdx) (a v : Option Word) (p : Word)
      (decoded : decodeWith s.idex.opcode s.idex.instructionWord = some i) (done : Completes i s d a v p) :
      ExEffect s (writeExmem d a v { s with pc := p })

/-- EX always answers a next state. -/
theorem exStage_effect (s : State) : ∃ t, exStage s = .next t ∧ ExEffect s t := by
  unfold exStage
  cases hd : decodeWith s.idex.opcode s.idex.instructionWord with
  | none => exact ⟨_, rfl, .raises _⟩
  | some i =>
    rcases exec_cases i s with ⟨k, hk⟩ | ⟨d, a, v, p, h⟩
    · exact ⟨_, hk, .raises k⟩
    · exact ⟨_, h.result, .writes i d a v p hd h⟩

/-- The opcode field decides whether the instruction is a load or a store (30_encoding.md R63). -/
theorem isLoadStore_of_decodeWith {op : BitVec 6} {w : Word} {i : Instr} (h : decodeWith op w = some i)
    (ha : op = 35#6 ∨ op = 43#6) : isLoadStore i = true := by
  rcases ha with rfl | rfl <;> · simp [decodeWith] at h; subst h; rfl

/-! ### IF and the scheduler -/

/-- The state ID leaves (40_pipeline.md R89). -/
def afterId (w : Window) (s : State) : State :=
  if w.has 2 then writeIdex s.ifid.instructionWord s else s

theorem runStage_id (w : Window) (s : State) (hs : s.status = .ok) :
    runStage w 2 idStage s = .next (afterId w s) := by
  unfold afterId
  split
  · next h => rw [runStage_run hs h, idStage]
  · next h => exact runStage_skip h

theorem afterId_kept (w : Window) (s : State) :
    (afterId w s).x = s.x ∧ (afterId w s).pc = s.pc ∧ (afterId w s).dmem = s.dmem ∧
    (afterId w s).imem = s.imem ∧ (afterId w s).ifid = s.ifid ∧ (afterId w s).exmem = s.exmem ∧
    (afterId w s).memwb = s.memwb ∧ (afterId w s).window = s.window ∧ (afterId w s).status = s.status ∧
    (afterId w s).cfg = s.cfg := by
  unfold afterId; split <;> simp

/-- The state IF leaves when its read succeeds (40_pipeline.md R88). -/
def afterIf (s : State) : State :=
  { writeIfid (s.imem.read (slotIndex s.pc)) s with pc := word32 (s.pc.toInt + 4) }

theorem ifStage_word {s : State} (ha : isAligned s.pc = true) (hb : inInstructionStore s.pc = true) :
    ifStage s = .next (afterIf s) := by
  unfold ifStage; rw [readSlot_word ha hb]; rfl

theorem ifStage_outOfBounds {s : State} (ha : isAligned s.pc = true) (hb : ¬ inInstructionStore s.pc = true) :
    ifStage s = .next (raise .addressOutOfBounds s.pc s) := by
  unfold ifStage; rw [readSlot_outOfBounds ha hb]

theorem ifStage_next {s t : State} (h : ifStage s = .next t) :
    isAligned s.pc = true ∧
    ((inInstructionStore s.pc = true ∧ t = afterIf s) ∨
     (¬ inInstructionStore s.pc = true ∧ t = raise .addressOutOfBounds s.pc s)) := by
  by_cases ha : isAligned s.pc = true
  · refine ⟨ha, ?_⟩
    by_cases hb : inInstructionStore s.pc = true
    · rw [ifStage_word ha hb] at h; exact .inl ⟨hb, (Host.Outcome.next.inj h).symm⟩
    · rw [ifStage_outOfBounds ha hb] at h; exact .inr ⟨hb, (Host.Outcome.next.inj h).symm⟩
  · unfold ifStage readSlot at h; rw [if_neg ha] at h; cases h

/-- The pc after a fetch (40_pipeline.md R88). -/
theorem afterIf_pc {s : State} (hb : inInstructionStore s.pc = true) :
    (afterIf s).pc.toNat = s.pc.toNat + 4 := by
  have h := (inInstructionStore_iff_toNat _).mp hb
  have hi := (inInstructionStore_iff_toInt _).mp hb
  show (word32 (s.pc.toInt + 4)).toNat = _
  rw [word32_toNat (by omega)]
  have : s.pc.toInt = s.pc.toNat := by rw [BitVec.toInt_eq_toNat_cond]; split <;> omega
  omega

theorem schedule_drain {w : Window} {s : State} (hs : s.status = .ok) (hw : w.lo ≠ 1) :
    schedule w s = .next { s with window := nextWindow (w.lo + 1) w.hi } := by
  unfold schedule; rw [if_pos hs, if_neg hw]

theorem schedule_lookAhead {w : Window} {s : State} (hs : s.status = .ok) (hw : w.lo = 1)
    (ha : isAligned s.pc = true) (hb : inInstructionStore s.pc = true) :
    schedule w s = .next { s with
      window := nextWindow (if s.imem.read (slotIndex s.pc) = 0 then 2 else 1) w.hi } := by
  unfold schedule; rw [if_pos hs, if_pos hw, readSlot_word ha hb]

theorem schedule_outOfBounds {w : Window} {s : State} (hs : s.status = .ok) (hw : w.lo = 1)
    (ha : isAligned s.pc = true) (hb : ¬ inInstructionStore s.pc = true) :
    schedule w s = .next (raise .addressOutOfBounds s.pc s) := by
  unfold schedule; rw [if_pos hs, if_pos hw, readSlot_outOfBounds ha hb]

theorem schedule_faulted {w : Window} {s : State} (hs : s.status ≠ .ok) : schedule w s = .next s := by
  unfold schedule; rw [if_neg hs]

/-- Everything the scheduler can do (40_pipeline.md R84, R85). -/
theorem schedule_next {w : Window} {s t : State} (h : schedule w s = .next t) :
    (s.status ≠ .ok ∧ t = s) ∨
    (s.status = .ok ∧ w.lo ≠ 1 ∧ t = { s with window := nextWindow (w.lo + 1) w.hi }) ∨
    (s.status = .ok ∧ w.lo = 1 ∧ isAligned s.pc = true ∧ inInstructionStore s.pc = true ∧
      t = { s with window := nextWindow (if s.imem.read (slotIndex s.pc) = 0 then 2 else 1) w.hi }) ∨
    (s.status = .ok ∧ w.lo = 1 ∧ isAligned s.pc = true ∧ ¬ inInstructionStore s.pc = true ∧
      t = raise .addressOutOfBounds s.pc s) := by
  by_cases hs : s.status = .ok
  · by_cases hw : w.lo = 1
    · by_cases ha : isAligned s.pc = true
      · by_cases hb : inInstructionStore s.pc = true
        · rw [schedule_lookAhead hs hw ha hb] at h
          exact .inr (.inr (.inl ⟨hs, hw, ha, hb, (Host.Outcome.next.inj h).symm⟩))
        · rw [schedule_outOfBounds hs hw ha hb] at h
          exact .inr (.inr (.inr ⟨hs, hw, ha, hb, (Host.Outcome.next.inj h).symm⟩))
      · unfold schedule readSlot at h; rw [if_pos hs, if_pos hw, if_neg ha] at h; cases h
    · rw [schedule_drain hs hw] at h
      exact .inr (.inl ⟨hs, hw, (Host.Outcome.next.inj h).symm⟩)
  · rw [schedule_faulted hs] at h
    exact .inl ⟨hs, (Host.Outcome.next.inj h).symm⟩

/-! ### The part of the cycle after EX -/

/-- After a raise nothing runs (40_pipeline.md R98). -/
theorem afterEx_faulted {w : Window} {s : State} (hs : s.status ≠ .ok) : afterEx w s = .next s := by
  unfold afterEx
  rw [runStage_faulted hs, andThen_next, runStage_faulted hs, andThen_next, schedule_faulted hs]

/-- While draining, ID and the window shift are all that runs (40_pipeline.md R87). -/
theorem afterEx_drain {w : Window} {s : State} (hs : s.status = .ok) (hw : 1 < w.lo) :
    afterEx w s = .next { afterId w s with window := nextWindow (w.lo + 1) w.hi } := by
  have h1 : ¬ w.has 1 := by simp [Window.has]; omega
  have hi : (afterId w s).status = .ok := (afterId_kept w s).2.2.2.2.2.2.2.2.1.trans hs
  unfold afterEx
  rw [runStage_id w s hs, andThen_next, runStage_skip h1, andThen_next,
    schedule_drain hi (show w.lo ≠ 1 by omega)]

end Sys2Proof.Machine
end

