-- ==== Sys2Proof/Laws/Cycle.lean ====
section
/-! SUPPORT. What one cycle can do: the state after EX, then one of four ends (40_pipeline.md R81). -/

namespace Sys2Proof.Machine

theorem step_faulted {s : State} (h : s.status ≠ .ok) : step s = .next s := by
  unfold step cycle; rw [if_neg h]

theorem step_window {s : State} {w : Window} (hs : s.status = .ok) (hw : s.window = some w) :
    step s = runWindow w s := by
  unfold step cycle; rw [if_pos hs, hw]

theorem step_completed {s : State} (hs : s.status = .ok) (hw : s.window = none) (hp : s.pc ≠ pcReset) :
    step s = .next s := by
  unfold step cycle; rw [if_pos hs, hw]; exact if_neg hp

theorem step_seed {s : State} (hs : s.status = .ok) (hw : s.window = none) (hp : s.pc = pcReset) :
    step s = runWindow { lo := 1, hi := 1 } (seed s) := by
  unfold step cycle; rw [if_pos hs, hw]; exact if_pos hp

/-- The state after the EX slot of the cycle: EX's effect if EX is in the window (40_pipeline.md R83). -/
theorem runStage_ex (w : Window) (s : State) (hs : s.status = .ok) :
    ∃ t, runStage w 3 exStage s = .next t ∧ (if w.has 3 then ExEffect s t else t = s) := by
  by_cases h3 : w.has 3
  · obtain ⟨t, ht, he⟩ := exStage_effect s
    exact ⟨t, by rw [runStage_run hs h3, ht], by rw [if_pos h3]; exact he⟩
  · exact ⟨s, runStage_skip h3, by rw [if_neg h3]⟩

/-- A cycle with a window is WB and MEM, then EX, then the rest. -/
theorem runWindow_next {w : Window} {s t : State} (hs : s.status = .ok) (h : runWindow w s = .next t) :
    beforeEx w s = .next (afterMem w s) ∧
    ∃ u, runStage w 3 exStage (afterMem w s) = .next u ∧
      (if w.has 3 then ExEffect (afterMem w s) u else u = afterMem w s) ∧ afterEx w u = .next t := by
  unfold runWindow at h
  obtain ⟨u, hu, ht⟩ := andThen_eq_next.mp h
  obtain ⟨m, hm, hx⟩ := andThen_eq_next.mp hu
  obtain ⟨-, rfl⟩ := beforeEx_next hs hm
  obtain ⟨u', hu', he⟩ := runStage_ex w (afterMem w s) ((afterMem_kept w s).status.trans hs)
  rw [hx] at hu'
  cases hu'
  exact ⟨hm, u, hx, he, ht⟩

/-- The part of a cycle after WB and MEM, forwards. -/
theorem runWindow_eq {w : Window} {s m u : State} (hm : beforeEx w s = .next m)
    (hu : runStage w 3 exStage m = .next u) : runWindow w s = afterEx w u := by
  unfold runWindow; rw [hm, andThen_next, hu, andThen_next]

/-- How the part of the cycle after EX ends (40_pipeline.md R84, R88, R98). -/
inductive CycleEnd (w : Window) (u : State) : State → Prop where
  /-- EX has raised. -/
  | aborted (h : u.status ≠ .ok) : CycleEnd w u u
  /-- The pipeline drains: no fetch. -/
  | drained (h : u.status = .ok) (hl : w.lo ≠ 1) :
      CycleEnd w u { afterId w u with window := nextWindow (w.lo + 1) w.hi }
  /-- IF raises. -/
  | noFetch (h : u.status = .ok) (hl : w.lo = 1) (ha : isAligned u.pc = true)
      (hb : ¬ inInstructionStore u.pc = true) :
      CycleEnd w u (raise .addressOutOfBounds u.pc (afterId w u))
  /-- IF has fetched and the look-ahead raises. -/
  | noLookAhead (h : u.status = .ok) (hl : w.lo = 1) (ha : isAligned u.pc = true)
      (hb : inInstructionStore u.pc = true) (hn : ¬ inInstructionStore (afterIf (afterId w u)).pc = true) :
      CycleEnd w u (raise .addressOutOfBounds (afterIf (afterId w u)).pc (afterIf (afterId w u)))
  /-- IF has fetched and the look-ahead has set the next window. -/
  | fetched (h : u.status = .ok) (hl : w.lo = 1) (ha : isAligned u.pc = true)
      (hb : inInstructionStore u.pc = true) (hn : inInstructionStore (afterIf (afterId w u)).pc = true) :
      CycleEnd w u { afterIf (afterId w u) with
        window := nextWindow
          (if (afterIf (afterId w u)).imem.read (slotIndex (afterIf (afterId w u)).pc) = 0 then 2 else 1) w.hi }

theorem afterIf_aligned {u : State} (ha : isAligned u.pc = true) (hb : inInstructionStore u.pc = true) :
    isAligned (afterIf u).pc = true := by
  rw [isAligned_iff_toNat] at ha ⊢
  rw [afterIf_pc hb]
  omega

theorem afterEx_next {w : Window} {u t : State} (hl : w.legal) (h : afterEx w u = .next t) :
    CycleEnd w u t := by
  by_cases hu : u.status = .ok
  · obtain ⟨kx, kp, kd, ki, kf, ke, km, kw, ks, kc⟩ := afterId_kept w u
    have hs : (afterId w u).status = .ok := ks.trans hu
    by_cases h1 : w.lo = 1
    · have h11 : w.has 1 := ⟨by omega, by have := hl.2.1; omega⟩
      unfold afterEx at h
      rw [runStage_id w u hu, andThen_next, runStage_run hs h11] at h
      obtain ⟨v, hv, ht⟩ := andThen_eq_next.mp h
      obtain ⟨ha, ⟨hb, rfl⟩ | ⟨hb, rfl⟩⟩ := ifStage_next hv
      · rw [kp] at ha hb
        have hi : (afterIf (afterId w u)).status = .ok := hs
        rcases schedule_next ht with ⟨hn, -⟩ | ⟨-, hn, -⟩ | ⟨-, -, -, hb', rfl⟩ | ⟨-, -, -, hb', rfl⟩
        · exact absurd hi hn
        · exact absurd h1 hn
        · exact .fetched hu h1 ha hb hb'
        · exact .noLookAhead hu h1 ha hb hb'
      · rw [kp] at ha hb
        rw [schedule_faulted (by simp)] at ht
        cases ht
        rw [kp]
        exact .noFetch hu h1 ha hb
    · have : 1 < w.lo := by have := hl.1; omega
      rw [afterEx_drain hu this] at h
      cases h
      exact .drained hu h1
  · rw [afterEx_faulted hu] at h
    cases h
    exact .aborted hu

/-- From an aligned pc the part of the cycle after EX always answers a next state. -/
theorem afterEx_total {w : Window} {u : State} (hl : w.legal) (ha : isAligned u.pc = true) :
    ∃ t, afterEx w u = .next t := by
  by_cases hu : u.status = .ok
  · obtain ⟨kx, kp, kd, ki, kf, ke, km, kw, ks, kc⟩ := afterId_kept w u
    have hs : (afterId w u).status = .ok := ks.trans hu
    by_cases h1 : w.lo = 1
    · have h11 : w.has 1 := ⟨by omega, by have := hl.2.1; omega⟩
      unfold afterEx
      rw [runStage_id w u hu, andThen_next, runStage_run hs h11]
      by_cases hb : inInstructionStore u.pc = true
      · rw [ifStage_word (by rw [kp]; exact ha) (by rw [kp]; exact hb), andThen_next]
        have ha' := afterIf_aligned (u := afterId w u) (by rw [kp]; exact ha) (by rw [kp]; exact hb)
        by_cases hn : inInstructionStore (afterIf (afterId w u)).pc = true
        · exact ⟨_, schedule_lookAhead hs h1 ha' hn⟩
        · exact ⟨_, schedule_outOfBounds hs h1 ha' hn⟩
      · rw [ifStage_outOfBounds (by rw [kp]; exact ha) (by rw [kp]; exact hb), andThen_next]
        exact ⟨_, schedule_faulted (by simp)⟩
    · exact ⟨_, afterEx_drain hu (by have := hl.1; omega)⟩
  · exact ⟨u, afterEx_faulted hu⟩

end Sys2Proof.Machine
end

