-- ==== Sys2Proof/Laws/Fields.lean ====
section
/-! SUPPORT. The fields of each format, in order, are the whole word (30_encoding.md R61, R62). -/

namespace Sys2Proof

@[simp] theorem regBits_rsField (w : Word) : regBits (rsField w) = w.extractLsb' 21 5 :=
  BitVec.eq_of_toNat_eq (by simp [regBits, rsField])
@[simp] theorem regBits_rtField (w : Word) : regBits (rtField w) = w.extractLsb' 16 5 :=
  BitVec.eq_of_toNat_eq (by simp [regBits, rtField])
@[simp] theorem regBits_rdField (w : Word) : regBits (rdField w) = w.extractLsb' 11 5 :=
  BitVec.eq_of_toNat_eq (by simp [regBits, rdField])

/-- Format R: opcode, rs, rt, rd, shamt, funct. -/
theorem fieldsR_append (w : Word) :
    opcodeField w ++ regBits (rsField w) ++ regBits (rtField w) ++ regBits (rdField w) ++ shamtField w ++
      functField w = w := by
  rw [regBits_rsField, regBits_rtField, regBits_rdField]
  unfold opcodeField shamtField functField
  rw [BitVec.extractLsb'_append_extractLsb'_eq_extractLsb' (show 26 = 21 + 5 from rfl),
    BitVec.extractLsb'_append_extractLsb'_eq_extractLsb' (show 21 = 16 + 5 from rfl),
    BitVec.extractLsb'_append_extractLsb'_eq_extractLsb' (show 16 = 11 + 5 from rfl),
    BitVec.extractLsb'_append_extractLsb'_eq_extractLsb' (show 11 = 6 + 5 from rfl),
    BitVec.extractLsb'_append_extractLsb'_eq_extractLsb' (show 6 = 0 + 6 from rfl)]
  exact BitVec.extractLsb'_eq_self

/-- Format I: opcode, rs, rt, immediate. -/
theorem fieldsI_append (w : Word) :
    opcodeField w ++ regBits (rsField w) ++ regBits (rtField w) ++ immediateField w = w := by
  rw [regBits_rsField, regBits_rtField]
  unfold opcodeField immediateField
  rw [BitVec.extractLsb'_append_extractLsb'_eq_extractLsb' (show 26 = 21 + 5 from rfl),
    BitVec.extractLsb'_append_extractLsb'_eq_extractLsb' (show 21 = 16 + 5 from rfl),
    BitVec.extractLsb'_append_extractLsb'_eq_extractLsb' (show 16 = 0 + 16 from rfl)]
  exact BitVec.extractLsb'_eq_self

/-- Format J: opcode, pseudo_address. -/
theorem fieldsJ_append (w : Word) : opcodeField w ++ pseudoAddressField w = w := by
  unfold opcodeField pseudoAddressField
  rw [BitVec.extractLsb'_append_extractLsb'_eq_extractLsb' (show 26 = 0 + 26 from rfl)]
  exact BitVec.extractLsb'_eq_self

end Sys2Proof
end

