-- ==== Sys2Proof/Laws/PerInstr.lean ====
section
/-! SUPPORT. A statement for all instructions, one lemma per constructor: the word an instruction is encoded
to lies in its own row of the opcode map (30_encoding.md R68). -/

namespace Sys2Proof.Laws.EncodedInOwnRow

/-- The encoded word matches the row of the opcode map with the instruction's mnemonic. -/
def Statement (i : Instr) : Prop := ∃ r ∈ opcodeMap, r.mnemonic = i.mnemonic ∧ r.matchesWord (encode i) = true

/-- The opcode and funct fields of a format R word, whatever its register fields are. -/
theorem wordR_masked (rs rt rd : RegIdx) (funct : BitVec 6) :
    wordR rs rt rd funct &&& 0xFC00003F#32 = 0#6 ++ 0#5 ++ 0#5 ++ 0#5 ++ 0#5 ++ funct := by
  have key : ∀ (a f : BitVec 6) (b c d e : BitVec 5),
      (a ++ b ++ c ++ d ++ e ++ f) &&&
        (BitVec.allOnes 6 ++ 0#5 ++ 0#5 ++ 0#5 ++ 0#5 ++ BitVec.allOnes 6) =
      a ++ 0#5 ++ 0#5 ++ 0#5 ++ 0#5 ++ f := by
    intros
    simp only [BitVec.and_append, BitVec.and_zero, BitVec.and_allOnes]
  exact key _ _ _ _ _ _

/-- The opcode field of a format I word, whatever its other fields are. -/
theorem wordI_masked (op : BitVec 6) (rs rt : RegIdx) (imm : BitVec 16) :
    wordI op rs rt imm &&& 0xFC000000#32 = op ++ 0#5 ++ 0#5 ++ 0#16 := by
  have key : ∀ (a : BitVec 6) (b c : BitVec 5) (d : BitVec 16),
      (a ++ b ++ c ++ d) &&& (BitVec.allOnes 6 ++ 0#5 ++ 0#5 ++ 0#16) = a ++ 0#5 ++ 0#5 ++ 0#16 := by
    intros
    simp only [BitVec.and_append, BitVec.and_zero, BitVec.and_allOnes]
  exact key _ _ _ _

/-- The opcode field of a format J word, whatever its target field is. -/
theorem wordJ_masked (op : BitVec 6) (idx : BitVec 26) :
    wordJ op idx &&& 0xFC000000#32 = op ++ 0#26 := by
  have key : ∀ (a : BitVec 6) (b : BitVec 26), (a ++ b) &&& (BitVec.allOnes 6 ++ 0#26) = a ++ 0#26 := by
    intros
    simp only [BitVec.and_append, BitVec.and_zero, BitVec.and_allOnes]
  exact key _ _

/-- A row of the map and the masked word give the statement. -/
theorem of_row {i : Instr} (r : OpcodeRow) (hr : r ∈ opcodeMap) (hm : r.mnemonic = i.mnemonic)
    (hw : encode i &&& r.mask = r.pattern) : Statement i :=
  ⟨r, hr, hm, by simpa [OpcodeRow.matchesWord] using hw⟩

theorem add (rd rs rt : RegIdx) : Statement (.add rd rs rt) :=
  of_row ⟨"ADD", 0x00000020#32, 0xFC00003F#32⟩ (by decide) rfl (wordR_masked rs rt rd 32#6)

theorem addi (rt rs : RegIdx) (imm : Int) : Statement (.addi rt rs imm) :=
  of_row ⟨"ADDI", 0x20000000#32, 0xFC000000#32⟩ (by decide) rfl (wordI_masked 8#6 rs rt _)

theorem and (rd rs rt : RegIdx) : Statement (.and rd rs rt) :=
  of_row ⟨"AND", 0x00000024#32, 0xFC00003F#32⟩ (by decide) rfl (wordR_masked rs rt rd 36#6)

theorem andi (rt rs : RegIdx) (imm : Nat) : Statement (.andi rt rs imm) :=
  of_row ⟨"ANDI", 0x30000000#32, 0xFC000000#32⟩ (by decide) rfl (wordI_masked 12#6 rs rt _)

theorem lw (rt : RegIdx) (off : Int) (rs : RegIdx) : Statement (.lw rt off rs) :=
  of_row ⟨"LW", 0x8C000000#32, 0xFC000000#32⟩ (by decide) rfl (wordI_masked 35#6 rs rt _)

theorem sw (rt : RegIdx) (off : Int) (rs : RegIdx) : Statement (.sw rt off rs) :=
  of_row ⟨"SW", 0xAC000000#32, 0xFC000000#32⟩ (by decide) rfl (wordI_masked 43#6 rs rt _)

theorem beq (rs rt : RegIdx) (imm : Int) : Statement (.beq rs rt imm) :=
  of_row ⟨"BEQ", 0x10000000#32, 0xFC000000#32⟩ (by decide) rfl (wordI_masked 4#6 rs rt _)

theorem j (idx : Nat) : Statement (.j idx) :=
  of_row ⟨"J", 0x08000000#32, 0xFC000000#32⟩ (by decide) rfl (wordJ_masked 2#6 _)

theorem jr (rs : RegIdx) : Statement (.jr rs) :=
  of_row ⟨"JR", 0x00000008#32, 0xFC00003F#32⟩ (by decide) rfl (wordR_masked rs 0 0 8#6)

end Sys2Proof.Laws.EncodedInOwnRow
end

