-- ==== Sys2Proof/Tests/Slice0.lean ====
section
/-! SUPPORT. Tests of the model, and for every obligation with hypotheses a concrete input that meets them.

Expected results come from spec/95_test_vectors.md (VE, VA, VM, VC, VX, P) or from the rule named. -/

namespace Sys2Proof.Tests

open Sys2Proof Sys2Proof.Machine

/-! ### WellFormed: each check refuses an ill-formed term (30_encoding.md R61, R65, R72) -/

theorem test_wellFormed_addi_low : (Instr.addi 8 0 (-32769)).wellFormed = false := by decide
theorem test_wellFormed_addi_high : (Instr.addi 8 0 32768).wellFormed = false := by decide
theorem test_wellFormed_andi : (Instr.andi 8 0 65536).wellFormed = false := by decide
theorem test_wellFormed_lw : (Instr.lw 8 32768 0).wellFormed = false := by decide
theorem test_wellFormed_sw : (Instr.sw 8 (-32769) 0).wellFormed = false := by decide
theorem test_wellFormed_beq : (Instr.beq 8 0 32768).wellFormed = false := by decide
theorem test_wellFormed_j : (Instr.j 67108864).wellFormed = false := by decide

/-- The ends of each range are accepted. -/
theorem test_wellFormed_ends :
    ((Instr.addi 8 0 (-32768)).wellFormed && (Instr.lw 8 32767 0).wellFormed &&
     (Instr.sw 8 (-32768) 0).wellFormed && (Instr.beq 8 0 (-32768)).wellFormed &&
     (Instr.andi 8 0 65535).wellFormed && (Instr.j 67108863).wellFormed) = true := by decide

/-! ### Decode: one word of each instruction, bit by bit in the columns of spec/95_test_vectors.md -/

/-- VE1. -/
theorem test_decode_add : decodeWord 0b000000_01010_01001_01100_00000_100000#32 = some (.add 12 10 9) := by
  decide
/-- VE2. -/
theorem test_decode_addi : decodeWord 0b001000_01000_01000_1111111111111111#32 = some (.addi 8 8 (-1)) := by
  decide
/-- VE3. -/
theorem test_decode_and : decodeWord 0b000000_01001_01010_01000_00000_100100#32 = some (.and 8 9 10) := by
  decide
/-- VE4. -/
theorem test_decode_andi :
    decodeWord 0b001100_01000_01001_1000000000000001#32 = some (.andi 9 8 0x8001) := by decide
/-- VE5. -/
theorem test_decode_lw : decodeWord 0b100011_01000_01010_1111111111111100#32 = some (.lw 10 (-4) 8) := by
  decide
/-- VE6. -/
theorem test_decode_sw : decodeWord 0b101011_00000_01000_0000000111110000#32 = some (.sw 8 496 0) := by
  decide
/-- VE7. -/
theorem test_decode_beq : decodeWord 0b000100_01000_00000_0000000000000010#32 = some (.beq 8 0 2) := by
  decide
/-- VE8. -/
theorem test_decode_j : decodeWord 0b000010_00000000000000000000110010#32 = some (.j 50) := by decide
/-- VE9. -/
theorem test_decode_jr : decodeWord 0b000000_01000_00000_00000_00000_001000#32 = some (.jr 8) := by decide
/-- VE10: shamt is 31, and ignored. -/
theorem test_decode_ignores_shamt :
    shamtField 0x010847E0#32 = 31#5 ∧ decodeWord 0x010847E0#32 = some (.add 8 8 8) := by decide
/-- VE11 to VE14: unrecognized. -/
theorem test_decode_unrecognized :
    decodeWord 0x00000000#32 = none ∧ decodeWord 0x012A4022#32 = none ∧
    decodeWord 0x04000000#32 = none ∧ decodeWord 0xFFFFFFFF#32 = none := by decide
/-- The words of VE1 to VE9 are what the encoder writes. -/
theorem test_encode :
    encode (.add 12 10 9) = 0x01496020#32 ∧ encode (.addi 8 8 (-1)) = 0x2108FFFF#32 ∧
    encode (.and 8 9 10) = 0x012A4024#32 ∧ encode (.andi 9 8 0x8001) = 0x31098001#32 ∧
    encode (.lw 10 (-4) 8) = 0x8D0AFFFC#32 ∧ encode (.sw 8 496 0) = 0xAC0801F0#32 ∧
    encode (.beq 8 0 2) = 0x11000002#32 ∧ encode (.j 50) = 0x08000032#32 ∧
    encode (.jr 8) = 0x01000008#32 := by decide
/-- The host's entry numbers bits as the opcode table does. -/
theorem test_decodeTableWord : decodeTableWord 32 0x20080004 = some (.addi 8 0 4) := by decide

/-! ### Small states -/

/-- The next state of an outcome, if it is one. -/
def nextOf (o : Host.Outcome State Fault Refusal) : Option State :=
  match o with
  | .next s => some s
  | .fault _ => none
  | .refused _ => none

/-- A latch as a stage leaves it for the word `w`. -/
def holding (w : Word) (t : Option RegIdx) (a v : Word) : Latch :=
  { valid := true, opcode := opcodeField w, registerTarget := t, memoryTarget := a, writeVal := v,
    instructionWord := w }

/-- The filler `ADDI $8,$8,0` (30_encoding.md R74). -/
def filler : Word := 0x21080000#32

/-- A steady state: all five stages in the window, `w` in ID/EX, fillers around it, registers 8, 9 and 10 as
given and nothing to forward. -/
def steady (w r8 r9 r10 : Word) : State :=
  { State.reset with
    x := (((State.reset.x.set 8 r8).set 9 r9).set 10 r10)
    pc := 16
    imem := [(0, filler), (1, filler), (2, w), (3, filler), (4, filler), (5, filler)]
    ifid := holding filler none 0 0, idex := holding w none 0 0
    exmem := holding filler none 0 0, memwb := holding filler none 0 0
    window := some { lo := 1, hi := 5 } }

/-- What EX/MEM holds for the stages behind: destination and value. -/
def pending (o : Host.Outcome State Fault Refusal) : Option (Option RegIdx × Word) :=
  (nextOf o).map (fun t => (t.exmem.registerTarget, t.exmem.writeVal))

/-- The status an outcome leaves. -/
def statusOf (o : Host.Outcome State Fault Refusal) : Option Status := (nextOf o).map State.status

/-- The pc an outcome leaves. -/
def pcOf (o : Host.Outcome State Fault Refusal) : Option Word := (nextOf o).map State.pc

/-! ### One instruction in EX -/

/-- VA1, VA4, VA7. -/
theorem test_add_sums :
    pending (exec (.add 8 9 10) (steady 0x012A4020#32 0 5 0xFFFFFFF9#32)) = some (some 8, 0xFFFFFFFE#32) ∧
    pending (exec (.add 8 9 10) (steady 0x012A4020#32 0 0x7FFFFFFF#32 0x80000000#32)) =
      some (some 8, 0xFFFFFFFF#32) ∧
    pending (exec (.add 8 9 10) (steady 0x012A4020#32 0 0xFFFFFFFF#32 1)) = some (some 8, 0) := by decide
/-- VA2, VA5, VA8. -/
theorem test_add_traps :
    statusOf (exec (.add 8 9 10) (steady 0x012A4020#32 0 0x7FFFFFFF#32 1)) =
      some (.faulted .arithmeticOverflow 0x012A4020#32) ∧
    statusOf (exec (.add 8 9 10) (steady 0x012A4020#32 0 0x80000000#32 0x80000000#32)) =
      some (.faulted .arithmeticOverflow 0x012A4020#32) ∧
    statusOf (exec (.add 0 9 10) (steady 0x012A0020#32 0 0x7FFFFFFF#32 1)) =
      some (.faulted .registerZeroWrite 0x012A0020#32) := by decide
/-- VA13, VA14. -/
theorem test_addi_sums :
    pending (exec (.addi 9 8 32767) (steady 0x21097FFF#32 0x80000000#32 0 0)) =
      some (some 9, 0x80007FFF#32) ∧
    pending (exec (.addi 8 0 (-32768)) (steady 0x20088000#32 0 0 0)) = some (some 8, 0xFFFF8000#32) := by
  decide
/-- VA12, VA15. -/
theorem test_addi_traps :
    statusOf (exec (.addi 8 8 (-1)) (steady 0x2108FFFF#32 0x80000000#32 0 0)) =
      some (.faulted .arithmeticOverflow 0x2108FFFF#32) ∧
    statusOf (exec (.addi 0 0 0) (steady 0x20000000#32 0 0 0)) =
      some (.faulted .registerZeroWrite 0x20000000#32) := by decide
/-- VA16, VA17. -/
theorem test_and :
    pending (exec (.and 8 9 10) (steady 0x012A4024#32 0 0xFFFF00FF#32 0x0F0F0F0F#32)) =
      some (some 8, 0x0F0F000F#32) ∧
    statusOf (exec (.and 0 9 10) (steady 0x012A0024#32 0 1 1)) =
      some (.faulted .registerZeroWrite 0x012A0024#32) := by decide
/-- The state with ANDI_EXT = sign and J_LIMIT = 800. -/
def otherParameters (s : State) : State := { s with cfg := { s.cfg with andiExt := .sign, jLimit := .fix } }
/-- VA18, VA19. -/
theorem test_andi_extension :
    pending (exec (.andi 9 8 0x8001) (steady 0x31098001#32 0xFFFFFFFF#32 0 0)) =
      some (some 9, 0x00008001#32) ∧
    pending (exec (.andi 9 8 0x8001) (otherParameters (steady 0x31098001#32 0xFFFFFFFF#32 0 0))) =
      some (some 9, 0xFFFF8001#32) := by decide
/-- VA21. -/
theorem test_andi_traps :
    statusOf (exec (.andi 0 8 0xFF) (steady 0x310000FF#32 0xFFFFFFFF#32 0 0)) =
      some (.faulted .registerZeroWrite 0x310000FF#32) := by decide
/-- VM2: the address. -/
theorem test_lw_address :
    (nextOf (exec (.lw 10 (-4) 8) (steady 0x8D0AFFFC#32 12 0 0))).map
      (fun t => (t.exmem.registerTarget, t.exmem.memoryTarget)) = some (some 10, 8) := by decide
/-- VM3, VM4, VM6, VM9: the order of the checks. -/
theorem test_lw_traps :
    statusOf (exec (.lw 0 1 8) (steady 0x8D000001#32 12 0 0)) =
      some (.faulted .registerZeroWrite 0x8D000001#32) ∧
    statusOf (exec (.lw 10 501 0) (steady 0x8C0A01F5#32 0 0 0)) =
      some (.faulted .unalignedAddress 0x8C0A01F5#32) ∧
    statusOf (exec (.lw 10 1 8) (steady 0x8D0A0001#32 0x7FFFFFFF#32 0 0)) =
      some (.faulted .arithmeticOverflow 0x8D0A0001#32) ∧
    statusOf (exec (.lw 10 500 0) (steady 0x8C0A01F4#32 0 0 0)) =
      some (.faulted .addressOutOfBounds 0x8C0A01F4#32) := by decide
/-- VM10, VM11: address, data, and no destination. -/
theorem test_sw_outputs :
    (nextOf (exec (.sw 9 0 8) (steady 0xAD090000#32 12 77 0))).map
      (fun t => (t.exmem.registerTarget, t.exmem.memoryTarget, t.exmem.writeVal)) = some (none, 12, 77) ∧
    (nextOf (exec (.sw 0 4 8) (steady 0xAD000004#32 12 77 0))).map
      (fun t => (t.exmem.registerTarget, t.exmem.memoryTarget, t.exmem.writeVal)) = some (none, 16, 0) := by
  decide
/-- VM13, VM14, VM16. -/
theorem test_sw_traps :
    statusOf (exec (.sw 9 (-1) 8) (steady 0xAD09FFFF#32 0x80000000#32 0 0)) =
      some (.faulted .arithmeticOverflow 0xAD09FFFF#32) ∧
    statusOf (exec (.sw 9 498 0) (steady 0xAC0901F2#32 0 0 0)) =
      some (.faulted .unalignedAddress 0xAC0901F2#32) ∧
    statusOf (exec (.sw 8 (-4) 0) (steady 0xAC08FFFC#32 0 0 0)) =
      some (.faulted .addressOutOfBounds 0xAC08FFFC#32) := by decide
/-- R131's two examples: taken from pc 24 to 32, and the fault of target 0 from pc 12. -/
theorem test_beq_taken :
    pcOf (exec (.beq 8 0 2) { steady 0x11000002#32 0 0 0 with pc := 24 }) = some 32 ∧
    statusOf (exec (.beq 0 0 (-3)) { steady 0x1000FFFD#32 0 0 0 with pc := 12 }) =
      some (.faulted .addressOutOfBounds 0x1000FFFD#32) := by decide
/-- VC6: not taken, whatever the immediate. -/
theorem test_beq_not_taken :
    pcOf (exec (.beq 8 0 (-100)) (steady 0x1100FF9C#32 1 0 0)) = some 16 ∧
    statusOf (exec (.beq 8 0 (-100)) (steady 0x1100FF9C#32 1 0 0)) = some .ok := by decide
/-- VC13, VC14: J_LIMIT = 200. -/
theorem test_j_default :
    pcOf (exec (.j 49) (steady 0x08000031#32 0 0 0)) = some 196 ∧
    statusOf (exec (.j 50) (steady 0x08000032#32 0 0 0)) =
      some (.faulted .addressOutOfBounds 0x08000032#32) := by decide
/-- VC14: J_LIMIT = 800. -/
theorem test_j_fix : pcOf (exec (.j 50) (otherParameters (steady 0x08000032#32 0 0 0))) = some 200 := by decide
/-- VC1, VC4: alignment only. -/
theorem test_jr :
    statusOf (exec (.jr 8) (steady 0x01000008#32 6 0 0)) =
      some (.faulted .unalignedAddress 0x01000008#32) ∧
    pcOf (exec (.jr 8) (steady 0x01000008#32 0xFFFFFFFC#32 0 0)) = some 0xFFFFFFFC#32 := by decide

/-! ### One cycle -/

/-- P4, cycle 5: WB and MEM of the faulting cycle stay, the result one ahead is only in MEM/WB. -/
theorem test_cycle_imprecise_fault :
    (nextOf (step { steady 0x8D090000#32 0 0 0 with
        pc := 12
        exmem := holding 0x200A0005#32 (some 10) 0 5
        memwb := holding 0x20080002#32 (some 8) 0 2
        window := some { lo := 3, hi := 5 } })).map
      (fun t => ((t.status, t.pc, t.window), t.x[8], t.x[10], t.memwb.registerTarget, t.memwb.writeVal)) =
    some ((.faulted .unalignedAddress 0x8D090000#32, 12, some { lo := 3, hi := 5 }), 2, 0, some 10, 5) := by
  decide
/-- P2, cycle 6: the store lands in MEM while LW is in EX. -/
theorem test_cycle_store :
    (nextOf (step { steady 0x8D0A0000#32 12 0 0 with exmem := holding 0xAD090000#32 none 12 77 })).map
      (fun t => (t.dmem, t.exmem.registerTarget, t.exmem.memoryTarget, t.memwb.registerTarget)) =
    some ([(12, 77)], some 10, 12, none) := by decide
/-- P2, cycle 7: the loaded cell reaches MEM/WB. -/
theorem test_cycle_load :
    (nextOf (step { steady filler 12 0 0 with
        dmem := [(12, 77)], exmem := holding 0x8D0A0000#32 (some 10) 12 0 })).map
      (fun t => (t.memwb.registerTarget, t.memwb.writeVal, t.dmem)) = some (some 10, 77, [(12, 77)]) := by
  decide
/-- VC3: EX sets pc to 800, then IF of the same cycle raises. -/
theorem test_cycle_jr_out_of_store :
    (nextOf (step (steady 0x01000008#32 800 0 0))).map (fun t => (t.status, t.pc)) =
      some (.faulted .addressOutOfBounds 0x00000320#32, 800) := by decide
/-- VX1, cycle 1: the window becomes (2,2) and pc 4. -/
theorem test_cycle_seed :
    (nextOf (step State.reset)).map (fun t => (t.window, t.pc, t.status)) =
      some (some { lo := 2, hi := 2 }, 4, .ok) := by decide
/-- The word placed for the host's question is the one the next step runs in EX. -/
theorem test_withFetchWord :
    (nextOf (step (State.reset.withFetchWord 32 0x20080004))).map
      (fun t => (t.exmem.registerTarget, t.exmem.writeVal, t.status, t.window)) =
      some (some 8, 4, .ok, some { lo := 4, hi := 4 }) := by decide

/-! ### Memory and the host's operations -/

/-- A write keeps the canonical form: rising indices, no blank cell listed (20_memory.md R41). -/
theorem test_memory_write :
    Memory.write [(4, 1), (12, 3)] 8 2 = [(4, 1), (8, 2), (12, 3)] ∧
    Memory.write [(4, 1), (12, 3)] 4 0 = [(12, 3)] ∧ Memory.read [(4, 1), (12, 3)] 8 = 0 := by decide

/-- R75's string of `ADDI $8,$0,4`. -/
def addiString : List Char := "00100000000010000000000000000100".toList

/-- The Word of R75. -/
theorem test_entryWord : entryWord (some addiString) = 0x20080004#32 := by decide
/-- VX9, VX11, VX12, VX13. -/
theorem test_load_errors :
    checkProgram [] = some .invalidProgram ∧
    checkProgram [some ("0010000000001000000000000000010".toList)] = some .invalidProgram ∧
    checkProgram [some ("0010000000001000000000000000010x".toList)] = some .invalidEncoding ∧
    checkProgram [some addiString, none] = some .invalidProgram := by decide
/-- VX10, VX14: 201 entries are too many, 200 are not. -/
theorem test_load_capacity :
    checkProgram (List.replicate 201 (some addiString)) = some .invalidProgram ∧
    checkProgram (List.replicate 200 (some addiString)) = none := by
  have h1 : entryHasLength (some addiString) = true := by decide
  have h2 : entryIsBits (some addiString) = true := by decide
  have h : ∀ n, checkProgram (List.replicate n (some addiString)) =
      if n = 0 ∨ slotCount < n then some .invalidProgram else none := by
    intro n; simp [checkProgram, h1, h2]
  exact ⟨h 201, h 200⟩

/-! ### Witnesses: inputs that meet the hypotheses of the obligations -/

/-- DecodeOfEncodeIsIdentity: the ends of every immediate. -/
theorem witness_DecodeOfEncodeIsIdentity :
    (Instr.addi 31 31 (-32768)).wellFormed = true ∧ (Instr.andi 31 0 65535).wellFormed = true ∧
    (Instr.lw 31 32767 0).wellFormed = true ∧ (Instr.sw 31 (-32768) 0).wellFormed = true ∧
    (Instr.beq 31 0 32767).wellFormed = true ∧ (Instr.j 67108863).wellFormed = true ∧
    (Instr.add 31 31 31).wellFormed = true ∧ (Instr.and 0 0 0).wellFormed = true ∧
    (Instr.jr 31).wellFormed = true := by decide
/-- DecodedInstructionsEncodeBack, with ignored bits set. -/
theorem witness_DecodedInstructionsEncodeBack : decodeWord 0x010847E0#32 = some (.add 8 8 8) := by decide
/-- DecoderAgreesWithOpcodeMap: both clauses. -/
theorem witness_DecoderAgreesWithOpcodeMap :
    decodeWord 0x8D0AFFFC#32 = some (.lw 10 (-4) 8) ∧
    ∃ r ∈ opcodeMap, r.matchesWord 0x0000FFC8#32 = true := by decide
/-- IgnoredFieldsDoNotChangeDecoding: two different words. -/
theorem witness_IgnoredFieldsDoNotChangeDecoding :
    decodeWord 0x01000008#32 = some (.jr 8) ∧ (0x01000008#32 : Word) ≠ 0x011FFFC8#32 ∧
    0x01000008#32 &&& (Instr.jr 8).usedBits = 0x011FFFC8#32 &&& (Instr.jr 8).usedBits := by decide
/-- CheckedAdditionIsExact: the sums next to the bounds. -/
theorem witness_CheckedAdditionIsExact :
    fitsSigned32 ((0x7FFFFFFE#32).toInt + (1#32).toInt) ∧
    ¬ fitsSigned32 ((0x7FFFFFFF#32).toInt + (1#32).toInt) ∧
    fitsSigned32 ((0x80000001#32).toInt + (0xFFFFFFFF#32).toInt) ∧
    ¬ fitsSigned32 ((0x80000000#32).toInt + (0xFFFFFFFF#32).toInt) := by decide
theorem witness_AddCompletesWithSum :
    (31 : RegIdx) ≠ 0 ∧ fitsSigned32
      ((fwd (steady filler 0 0x7FFFFFFF#32 0) 9).toInt + (fwd (steady filler 0 0x7FFFFFFF#32 0) 10).toInt) := by
  decide
theorem witness_AddiCompletesWithSum :
    (8 : RegIdx) ≠ 0 ∧ (Instr.addi 8 8 (-32768)).wellFormed = true ∧
    fitsSigned32 ((fwd (steady filler 0x80008000#32 0 0) 8).toInt + -32768) := by decide
theorem witness_AndCompletesBitwise : (1 : RegIdx) ≠ 0 := by decide
theorem witness_AndiCompletesUnderBothExtensions :
    (8 : RegIdx) ≠ 0 ∧ (Instr.andi 8 8 0x8001).wellFormed = true := by decide
/-- LwCompletesWithAddress and SwCompletesWithAddressAndData: the first and the last legal address. -/
theorem witness_LwCompletesWithAddress :
    (10 : RegIdx) ≠ 0 ∧ (Instr.lw 10 496 0).wellFormed = true ∧
    0 ≤ (fwd (steady filler 0 0 0) 0).toInt + 496 ∧ (fwd (steady filler 0 0 0) 0).toInt + 496 < 500 ∧
    ((fwd (steady filler 0 0 0) 0).toInt + 496) % 4 = 0 := by decide
theorem witness_SwCompletesWithAddressAndData :
    (Instr.sw 0 (-12) 8).wellFormed = true ∧
    0 ≤ (fwd (steady filler 12 0 0) 8).toInt + -12 ∧ (fwd (steady filler 12 0 0) 8).toInt + -12 < 500 ∧
    ((fwd (steady filler 12 0 0) 8).toInt + -12) % 4 = 0 := by decide
/-- BeqCompletesTakenAndNot: targets 4 and 796, and unequal operands. -/
theorem witness_BeqCompletesTakenAndNot :
    (fwd (steady filler 7 7 0) 8 = fwd (steady filler 7 7 0) 9 ∧
      4 ≤ (steady filler 7 7 0).pc.toInt + 4 * -3 ∧ (steady filler 7 7 0).pc.toInt + 4 * 195 < 800) ∧
    fwd (steady filler 7 8 0) 8 ≠ fwd (steady filler 7 8 0) 9 := by decide
/-- JCompletesBelowLimit: the last target under each limit. -/
theorem witness_JCompletesBelowLimit :
    (Instr.j 49).wellFormed = true ∧
    (steady filler 0 0 0).pc.toNat / 2 ^ 28 * 2 ^ 28 + 4 * 49 <
      (if (steady filler 0 0 0).cfg.jLimit = .fix then 800 else 200) ∧
    (Instr.j 199).wellFormed = true ∧
    (otherParameters (steady filler 0 0 0)).pc.toNat / 2 ^ 28 * 2 ^ 28 + 4 * 199 <
      (if (otherParameters (steady filler 0 0 0)).cfg.jLimit = .fix then 800 else 200) := by decide
theorem witness_JrCompletesExactlyWhenAligned :
    (fwd (steady filler 0xFFFFFFFC#32 6 0) 8).toNat % 4 = 0 ∧
    (fwd (steady filler 0xFFFFFFFC#32 6 0) 9).toNat % 4 ≠ 0 := by decide
theorem witness_ZeroDestinationAlwaysTraps : (steady filler 0 0 0).status = .ok := by decide
/-- OverflowTraps: both clauses, one past each bound. -/
theorem witness_OverflowTraps :
    (10 : RegIdx) ≠ 0 ∧ fitsSigned16 (-1) = true ∧
    ¬ fitsSigned32 ((fwd (steady filler 0x80000000#32 0xFFFFFFFF#32 0) 8).toInt +
        (fwd (steady filler 0x80000000#32 0xFFFFFFFF#32 0) 9).toInt) ∧
    ¬ fitsSigned32 ((fwd (steady filler 0x80000000#32 0xFFFFFFFF#32 0) 8).toInt + -1) := by decide
/-- BadDataAddressTraps: 501 and 3 misaligned; -4 and 500 out of bounds. -/
theorem witness_BadDataAddressTraps :
    (10 : RegIdx) ≠ 0 ∧
    (fitsSigned16 501 = true ∧ fitsSigned32 ((fwd (steady filler 0 0 0) 0).toInt + 501) ∧
      ((fwd (steady filler 0 0 0) 0).toInt + 501) % 4 ≠ 0) ∧
    (fitsSigned16 500 = true ∧ fitsSigned32 ((fwd (steady filler 0 0 0) 0).toInt + 500) ∧
      ((fwd (steady filler 0 0 0) 0).toInt + 500) % 4 = 0 ∧
      ((fwd (steady filler 0 0 0) 0).toInt + 500 < 0 ∨ 500 ≤ (fwd (steady filler 0 0 0) 0).toInt + 500)) ∧
    (fitsSigned16 (-4) = true ∧ fitsSigned32 ((fwd (steady filler 0 0 0) 0).toInt + -4) ∧
      ((fwd (steady filler 0 0 0) 0).toInt + -4) % 4 = 0 ∧
      ((fwd (steady filler 0 0 0) 0).toInt + -4 < 0 ∨ 500 ≤ (fwd (steady filler 0 0 0) 0).toInt + -4)) := by
  decide
/-- BadTransferTargetTraps: BEQ to 0 and to 800, J 50 under 200 and J 200 under 800. -/
theorem witness_BadTransferTargetTraps :
    ((Instr.j 50).wellFormed = true ∧ fwd (steady filler 7 7 0) 8 = fwd (steady filler 7 7 0) 9 ∧
      (steady filler 7 7 0).pc.toInt + 4 * -4 < 4 ∧ 800 ≤ (steady filler 7 7 0).pc.toInt + 4 * 196) ∧
    (if (steady filler 0 0 0).cfg.jLimit = .fix then 800 else 200) ≤
      (steady filler 0 0 0).pc.toNat / 2 ^ 28 * 2 ^ 28 + 4 * 50 ∧
    (Instr.j 200).wellFormed = true ∧
    (if (otherParameters (steady filler 0 0 0)).cfg.jLimit = .fix then 800 else 200) ≤
      (otherParameters (steady filler 0 0 0)).pc.toNat / 2 ^ 28 * 2 ^ 28 + 4 * 200 := by decide

/-- A store in MEM at the last legal address, with a result for register 10 in WB. -/
def storing (w : Word) : State :=
  { steady w 12 77 0 with
    exmem := holding 0xAC0901F0#32 none 496 77, memwb := holding 0x200A0005#32 (some 10) 0 5 }

/-- A load in MEM into register 10. -/
def loading (w : Word) : State :=
  { steady w 12 77 0 with dmem := [(12, 99)], exmem := holding 0x8D0A0000#32 (some 10) 12 0 }

/-- MemStageAccessesOneCell: a store, a load, and neither. -/
theorem witness_MemStageAccessesOneCell :
    ((storing filler).exmem.opcode = 43#6 ∧ legalDataAddress (storing filler).exmem.memoryTarget = true) ∧
    ((loading filler).exmem.opcode = 35#6 ∧ legalDataAddress (loading filler).exmem.memoryTarget = true) ∧
    ¬ (steady filler 0 0 0).exmem.isAccess := by decide
/-- IfFetchesSlotAtPc: pc 796 and pc 800. -/
theorem witness_IfFetchesSlotAtPc :
    ((796#32).toNat % 4 = 0 ∧ (796#32).toNat < 800) ∧ ((800#32).toNat % 4 = 0 ∧ 800 ≤ (800#32).toNat) := by
  decide
/-- SourceReadsForwardFromExmem: forwarded, and not. -/
theorem witness_SourceReadsForwardFromExmem :
    ((loading filler).exmem.valid = true ∧ (loading filler).exmem.registerTarget = some 10) ∧
    ((loading filler).exmem.registerTarget ≠ some 9) ∧ State.reset.exmem.valid = false := by decide
/-- ExReadsResultsOneAndTwoBack: each of the three sources. -/
theorem witness_ExReadsResultsOneAndTwoBack :
    (∃ t, beforeEx { lo := 1, hi := 5 } (loading filler) = .next t) ∧
    (∃ t, beforeEx { lo := 1, hi := 5 } (storing filler) = .next t) ∧
    (loading filler).status = .ok ∧ (storing filler).status = .ok ∧ Window.has { lo := 1, hi := 5 } 3 ∧
    ((loading filler).exmem.valid = true ∧ (loading filler).exmem.registerTarget = some 10) ∧
    (Window.has { lo := 1, hi := 5 } 5 ∧ (storing filler).memwb.registerTarget = some 10 ∧
      (storing filler).exmem.registerTarget ≠ some 10) := by
  refine ⟨⟨_, rfl⟩, ⟨_, rfl⟩, ?_⟩
  decide
theorem witness_LoadUseReadsFreeValue :
    ∃ t, exec (.lw 10 0 8) (steady 0x8D0A0000#32 12 0 0) = .next t ∧ t.status = .ok :=
  ⟨_, rfl, by decide⟩
theorem witness_StepRunsDecodedInstruction :
    ∃ s1, (storing 0x8D0A0000#32).status = .ok ∧ (storing 0x8D0A0000#32).window = some { lo := 1, hi := 5 } ∧
      Window.has { lo := 1, hi := 5 } 3 ∧
      (storing 0x8D0A0000#32).idex.opcode = opcodeField (storing 0x8D0A0000#32).idex.instructionWord ∧
      decodeWord (storing 0x8D0A0000#32).idex.instructionWord = some (.lw 10 0 8) ∧
      beforeEx { lo := 1, hi := 5 } (storing 0x8D0A0000#32) = .next s1 :=
  ⟨_, by decide, by decide, by decide, by decide, by decide, rfl⟩
/-- UnrecognizedWordTrapsInEx: by the opcode, and by funct. -/
theorem witness_UnrecognizedWordTrapsInEx :
    (∃ s1, beforeEx { lo := 1, hi := 5 } (storing 0x04000000#32) = .next s1) ∧
    (∃ s1, beforeEx { lo := 1, hi := 5 } (storing 0) = .next s1) ∧
    (storing 0).status = .ok ∧ (storing 0).window = some { lo := 1, hi := 5 } ∧
    Window.has { lo := 1, hi := 5 } 3 ∧
    (storing 0).idex.opcode = opcodeField (storing 0).idex.instructionWord ∧
    (storing 0x04000000#32).idex.opcode = opcodeField (storing 0x04000000#32).idex.instructionWord ∧
    (opcodeField 0x04000000#32).toNat ∉ [0, 2, 4, 8, 12, 35, 43] ∧
    ((opcodeField 0).toNat = 0 ∧ (functField 0).toNat ∉ [8, 32, 36]) := by
  refine ⟨⟨_, rfl⟩, ⟨_, rfl⟩, ?_⟩
  decide
theorem witness_ExFaultAbortsTheCycle :
    ∃ s1 s2, (storing 0x8D0A0001#32).status = .ok ∧
      (storing 0x8D0A0001#32).window = some { lo := 1, hi := 5 } ∧ Window.has { lo := 1, hi := 5 } 3 ∧
      beforeEx { lo := 1, hi := 5 } (storing 0x8D0A0001#32) = .next s1 ∧ exStage s1 = .next s2 ∧
      s2.status = .faulted .unalignedAddress 0x8D0A0001#32 :=
  ⟨_, _, by decide, by decide, by decide, rfl, rfl, by decide⟩
theorem witness_FaultedMachineIsStuck :
    (raise .addressOutOfBounds 800 (steady filler 0 0 0)).status = .faulted .addressOutOfBounds 800 := by decide
/-- CompletedMachineIsStuck: VX4. -/
theorem witness_CompletedMachineIsStuck :
    ({ State.reset with pc := 8 } : State).status = .ok ∧ ({ State.reset with pc := 8 } : State).window = none ∧
    ({ State.reset with pc := 8 } : State).pc ≠ 0 := by decide
/-- SeedingFetchesSlotZero: at reset, and after a completed run that left registers (P7). -/
theorem witness_SeedingFetchesSlotZero :
    (State.reset.status = .ok ∧ State.reset.window = none ∧ State.reset.pc = 0) ∧
    (let s := { steady filler 1 0 0 with window := none, pc := 0 }
     s.status = .ok ∧ s.window = none ∧ s.pc = 0) := by decide
/-- WindowFollowsLookAhead: lo = 1, lo = 2, lo = 4 and lo = 5. -/
theorem witness_WindowFollowsLookAhead :
    (∃ t, step (steady filler 0 0 0) = .next t ∧ t.status = .ok) ∧
    (∃ t, step { steady filler 0 0 0 with window := some { lo := 2, hi := 2 } } = .next t ∧ t.status = .ok) ∧
    (∃ t, step { steady filler 0 0 0 with window := some { lo := 4, hi := 5 } } = .next t ∧ t.status = .ok) ∧
    (∃ t, step { steady filler 0 0 0 with window := some { lo := 5, hi := 5 } } = .next t ∧ t.status = .ok) ∧
    (steady filler 0 0 0).status = .ok ∧ Window.legal { lo := 1, hi := 5 } ∧ Window.legal { lo := 2, hi := 2 } ∧
    Window.legal { lo := 4, hi := 5 } ∧ Window.legal { lo := 5, hi := 5 } := by
  refine ⟨⟨_, rfl, by decide⟩, ⟨_, rfl, by decide⟩, ⟨_, rfl, by decide⟩, ⟨_, rfl, by decide⟩, ?_⟩
  decide
/-- DrainNeverFetches: a JR executed while draining (VC5). -/
theorem witness_DrainNeverFetches :
    ∃ s1 s2, (1 < (Window.mk 2 3).lo) ∧
      beforeEx { lo := 2, hi := 3 } { steady 0x01000008#32 800 0 0 with window := some { lo := 2, hi := 3 } } =
        .next s1 ∧
      runStage { lo := 2, hi := 3 } 3 exStage s1 = .next s2 ∧ s2.pc = 800 :=
  ⟨_, _, by decide, rfl, rfl, by decide⟩
/-- The state of VX1 after its first cycle: slot 0 fetched, the pipeline draining. -/
def draining : State :=
  { State.reset with pc := 4, ifid := holding 0 none 0 0, window := some { lo := 2, hi := 2 } }
/-- StepKeepsLegality, LegalStatesAlwaysStep and DrainEndsInSixMinusLo: a legal state that drains. -/
theorem witness_DrainEndsInSixMinusLo :
    draining.Inv ∧ draining.status = .ok ∧ draining.window = some { lo := 2, hi := 2 } ∧
    1 < (Window.mk 2 2).lo := by
  refine ⟨?_, by decide, by decide, by decide⟩
  constructor <;>
    simp [draining, State.reset, Latch.reset, Memory.wf, Memory.within, holding, Window.legal, Window.has,
      isAligned]
theorem witness_StepKeepsLegality : draining.Inv ∧ ∃ t, step draining = .next t :=
  ⟨witness_DrainEndsInSixMinusLo.1, _, rfl⟩
theorem witness_LegalStatesAlwaysStep : draining.Inv := witness_DrainEndsInSixMinusLo.1
/-- TransferFetchesTargetAfterDelaySlot: a JR to 8. -/
theorem witness_TransferFetchesTargetAfterDelaySlot :
    ∃ s1 s2, (steady 0x01000008#32 8 0 0).status = .ok ∧
      (steady 0x01000008#32 8 0 0).window = some { lo := 1, hi := 5 } ∧ (Window.mk 1 5).lo = 1 ∧
      3 ≤ (Window.mk 1 5).hi ∧ beforeEx { lo := 1, hi := 5 } (steady 0x01000008#32 8 0 0) = .next s1 ∧
      exStage s1 = .next s2 ∧ s2.status = .ok ∧ s2.pc.toNat % 4 = 0 ∧ s2.pc.toNat + 4 < 800 :=
  ⟨_, _, by decide, by decide, by decide, by decide, rfl, rfl, by decide, by decide, by decide⟩
/-- FetchingTheLastSlotFaults: VC10, a BEQ to 796. -/
theorem witness_FetchingTheLastSlotFaults :
    ∃ s1 s2, (steady 0x100000C3#32 0 0 0).status = .ok ∧
      (steady 0x100000C3#32 0 0 0).window = some { lo := 1, hi := 5 } ∧ 1 ≤ (Window.mk 1 5).hi ∧
      beforeEx { lo := 1, hi := 5 } (steady 0x100000C3#32 0 0 0) = .next s1 ∧
      runStage { lo := 1, hi := 5 } 3 exStage s1 = .next s2 ∧ s2.status = .ok ∧ s2.pc = 796 :=
  ⟨_, _, by decide, by decide, by decide, rfl, rfl, by decide, by decide⟩
/-- FetchOutsideTheStoreFaults: VC3, a JR to 800. -/
theorem witness_FetchOutsideTheStoreFaults :
    ∃ s1 s2 s3, (steady 0x01000008#32 800 0 0).status = .ok ∧
      (steady 0x01000008#32 800 0 0).window = some { lo := 1, hi := 5 } ∧ 1 ≤ (Window.mk 1 5).hi ∧
      beforeEx { lo := 1, hi := 5 } (steady 0x01000008#32 800 0 0) = .next s1 ∧
      runStage { lo := 1, hi := 5 } 3 exStage s1 = .next s2 ∧
      runStage { lo := 1, hi := 5 } 2 idStage s2 = .next s3 ∧
      s2.status = .ok ∧ s2.pc.toNat % 4 = 0 ∧ 800 ≤ s2.pc.toNat :=
  ⟨_, _, _, by decide, by decide, by decide, rfl, rfl, rfl, by decide, by decide, by decide⟩
/-- EachInstructionAdvancesOneStage: all five stages in the window. -/
theorem witness_EachInstructionAdvancesOneStage :
    (∃ t, step (storing filler) = .next t ∧ t.status = .ok) ∧ (storing filler).status = .ok ∧
    (storing filler).window = some { lo := 1, hi := 5 } ∧ Window.legal { lo := 1, hi := 5 } ∧
    Window.has { lo := 1, hi := 5 } 2 ∧ Window.has { lo := 1, hi := 5 } 3 ∧
    Window.has { lo := 1, hi := 5 } 4 := by
  refine ⟨⟨_, rfl, by decide⟩, ?_⟩
  decide
/-- An ADDI result for register 10 in EX/MEM. -/
def resulting (w : Word) : State :=
  { steady w 12 77 0 with exmem := holding 0x200A0005#32 (some 10) 0 5 }
theorem witness_AluResultLandsTwoCyclesLater :
    (∃ t u, step (resulting filler) = .next t ∧ t.status = .ok ∧ step t = .next u) ∧
    (resulting filler).status = .ok ∧ (resulting filler).window = some { lo := 1, hi := 5 } ∧
    Window.legal { lo := 1, hi := 5 } ∧ Window.has { lo := 1, hi := 5 } 4 ∧
    ¬ (resulting filler).exmem.isAccess ∧ (resulting filler).exmem.registerTarget = some 10 ∧
    (10 : RegIdx) ≠ 0 := by
  refine ⟨⟨_, _, rfl, by decide, rfl⟩, ?_⟩
  decide
theorem witness_LoadedCellLandsTwoCyclesLater :
    (∃ t u, step (loading filler) = .next t ∧ t.status = .ok ∧ step t = .next u) ∧
    (loading filler).status = .ok ∧ (loading filler).window = some { lo := 1, hi := 5 } ∧
    Window.legal { lo := 1, hi := 5 } ∧ Window.has { lo := 1, hi := 5 } 4 ∧
    (loading filler).exmem.opcode = 35#6 ∧ (loading filler).exmem.registerTarget = some 10 ∧
    (10 : RegIdx) ≠ 0 := by
  refine ⟨⟨_, _, rfl, by decide, rfl⟩, ?_⟩
  decide
/-- StepStoresOnlyWhatMemHolds and StepWritesOnlyTheWbRegister: the cycle stores and writes register 10. -/
theorem witness_StepStoresOnlyWhatMemHolds :
    (∃ t, step (storing filler) = .next t) ∧ (storing filler).status = .ok ∧
    (storing filler).window = some { lo := 1, hi := 5 } ∧ Window.has { lo := 1, hi := 5 } 4 ∧
    (storing filler).exmem.opcode = 43#6 := by
  refine ⟨⟨_, rfl⟩, ?_⟩
  decide
theorem witness_StepWritesOnlyTheWbRegister :
    (∃ t, step (storing filler) = .next t) ∧ (storing filler).status = .ok ∧
    (storing filler).window = some { lo := 1, hi := 5 } ∧ Window.has { lo := 1, hi := 5 } 5 ∧
    (storing filler).memwb.registerTarget = some 10 ∧ (10 : RegIdx) ≠ 0 := by
  refine ⟨⟨_, rfl⟩, ?_⟩
  decide
theorem witness_SwStoresItsDataAtItsAddress :
    ∃ t a, (steady 0xAD090000#32 12 77 0).idex.opcode = 43#6 ∧
      effectiveAddress (steady 0xAD090000#32 12 77 0) 8 0 = .ok a ∧
      exec (.sw 9 0 8) (steady 0xAD090000#32 12 77 0) = .next t ∧ a = 12 :=
  ⟨_, _, by decide, rfl, rfl, by decide⟩
theorem witness_StepNeverWritesInstructions : ∃ t, step (storing filler) = .next t := ⟨_, rfl⟩
/-- LoadedResetIsLegal, LoadStoresStringAtItsSlot, PlacedWordIsALoadedProgram: R75's string. -/
theorem witness_LoadedResetIsLegal : ∃ s, load [some addiString] State.reset = .ok s := ⟨_, rfl⟩
theorem witness_LoadStoresStringAtItsSlot :
    (∃ t, load [some addiString] State.reset = .ok t) ∧
    ([some addiString] : ProgramText)[0]? = some (some addiString) ∧ addiString[31]? = some '0' ∧
    ([some addiString] : ProgramText).length ≤ 199 :=
  ⟨⟨_, rfl⟩, by decide, by decide, by decide⟩
theorem witness_PlacedWordIsALoadedProgram : ∃ s, load [some addiString] State.reset = .ok s := ⟨_, rfl⟩
/-- The last cycle of a run: WB alone in the window, register 10 still to be written (VX8's last group). -/
def lastCycle (g : StepGroup) : State :=
  { storing filler with cfg := { Config.default with stepGroup := g }, window := some { lo := 5, hi := 5 } }
/-- StepGroupDoesNotChangeTheEnd: both sides are met, by the same end. -/
theorem witness_StepGroupDoesNotChangeTheEnd :
    ∃ t : State, t.x[10] = 5 ∧
      runToCompletion 1 (lastCycle .five) =
        some (.next { t with cfg := { t.cfg with stepGroup := .five } }) ∧
      runToCompletion 1 (lastCycle .one) =
        some (.next { t with cfg := { t.cfg with stepGroup := .one } }) :=
  ⟨{ storing filler with x := (storing filler).x.set 10 5, window := none }, by decide, rfl, rfl⟩

end Sys2Proof.Tests
end

section
/-! The register frame of a step (10_state.md R20, R21): past WB and MEM no stage touches a register. -/

namespace Sys2Proof.Machine

/-- What EX, ID, IF and the scheduler leave alone: the registers, both memories, the latch WB reads and the
parameters (40_pipeline.md R84, R88 to R92). -/
structure KeptFromExOn (s t : State) : Prop where
  x     : t.x = s.x
  dmem  : t.dmem = s.dmem
  imem  : t.imem = s.imem
  memwb : t.memwb = s.memwb
  cfg   : t.cfg = s.cfg

theorem KeptFromExOn.refl (s : State) : KeptFromExOn s s := ⟨rfl, rfl, rfl, rfl, rfl⟩

theorem KeptFromExOn.trans {s t u : State} (h : KeptFromExOn s t) (h' : KeptFromExOn t u) :
    KeptFromExOn s u :=
  ⟨h'.x.trans h.x, h'.dmem.trans h.dmem, h'.imem.trans h.imem, h'.memwb.trans h.memwb, h'.cfg.trans h.cfg⟩

theorem ExEffect.keptFromExOn {s t : State} (h : ExEffect s t) : KeptFromExOn s t := by
  cases h with
  | raises k => exact ⟨rfl, rfl, rfl, rfl, rfl⟩
  | writes i d a v p _ _ => exact ⟨rfl, rfl, rfl, rfl, rfl⟩

theorem exStage_keptFromExOn {s t : State} (h : exStage s = .next t) : KeptFromExOn s t := by
  obtain ⟨u, hu, he⟩ := exStage_effect s
  obtain rfl : u = t := Host.Outcome.next.inj (hu.symm.trans h)
  exact he.keptFromExOn

theorem idStage_keptFromExOn {s t : State} (h : idStage s = .next t) : KeptFromExOn s t := by
  obtain rfl : writeIdex s.ifid.instructionWord s = t := Host.Outcome.next.inj h
  exact ⟨rfl, rfl, rfl, rfl, rfl⟩

theorem ifStage_keptFromExOn {s t : State} (h : ifStage s = .next t) : KeptFromExOn s t := by
  obtain ⟨-, ⟨-, rfl⟩ | ⟨-, rfl⟩⟩ := ifStage_next h
  · exact ⟨rfl, rfl, rfl, rfl, rfl⟩
  · exact ⟨rfl, rfl, rfl, rfl, rfl⟩

theorem schedule_keptFromExOn {w : Window} {s t : State} (h : schedule w s = .next t) :
    KeptFromExOn s t := by
  rcases schedule_next h with ⟨-, rfl⟩ | ⟨-, -, rfl⟩ | ⟨-, -, -, -, rfl⟩ | ⟨-, -, -, -, rfl⟩
  · exact .refl _
  all_goals exact ⟨rfl, rfl, rfl, rfl, rfl⟩

/-- A stage that is skipped keeps everything, so the slot of a stage keeps what the stage keeps. -/
theorem runStage_keptFromExOn {w : Window} {n : Nat} {f : State → Host.Outcome State Fault Refusal}
    (hf : ∀ {s t : State}, f s = .next t → KeptFromExOn s t) {s t : State}
    (h : runStage w n f s = .next t) : KeptFromExOn s t := by
  by_cases hrun : s.status = .ok ∧ w.has n
  · rw [runStage_run hrun.1 hrun.2] at h
    exact hf h
  · have hskip : runStage w n f s = .next s := by
      by_cases hs : s.status = .ok
      · exact runStage_skip fun hw => hrun ⟨hs, hw⟩
      · exact runStage_faulted hs
    obtain rfl : s = t := Host.Outcome.next.inj (hskip.symm.trans h)
    exact .refl s

theorem afterEx_keptFromExOn {w : Window} {s t : State} (h : afterEx w s = .next t) :
    KeptFromExOn s t := by
  obtain ⟨v, hv, hschedule⟩ := andThen_eq_next.mp h
  obtain ⟨u, hid, hif⟩ := andThen_eq_next.mp hv
  exact ((runStage_keptFromExOn idStage_keptFromExOn hid).trans
    (runStage_keptFromExOn ifStage_keptFromExOn hif)).trans (schedule_keptFromExOn hschedule)

/-- However a cycle ends, the registers, the memories, MEM/WB and the parameters are those that WB and MEM
left; no window is excluded. -/
theorem runWindow_keptFromExOn {w : Window} {s t : State} (hs : s.status = .ok)
    (h : runWindow w s = .next t) : KeptFromExOn (afterMem w s) t := by
  obtain ⟨-, u, hex, -, hafter⟩ := runWindow_next hs h
  exact (runStage_keptFromExOn exStage_keptFromExOn hex).trans (afterEx_keptFromExOn hafter)

end Sys2Proof.Machine

namespace Sys2Proof.Proofs

open Sys2Proof.Machine

/-- Settles O46: the registers after the step are those WB and MEM leave, and of the two only WB writes one. -/
theorem stepWritesOnlyTheWbRegister : Obligations.StepWritesOnlyTheWbRegister := by
  unfold Obligations.StepWritesOnlyTheWbRegister
  intro s t w r hs hw h
  rw [step_window hs hw] at h
  rw [(runWindow_keptFromExOn hs h).x]
  exact afterMem_x w s r

end Sys2Proof.Proofs
end

section
/-! The instruction store is never written (20_memory.md R53), and a legal state always steps (R47, 40_pipeline.md
R93, 42_loadstore.md R120). -/

namespace Sys2Proof.Machine

/-- The three ways a cycle starts (40_pipeline.md R81, R82, R99): it does nothing, it runs the window the state
holds, or it seeds. -/
theorem step_cases (s : State) :
    ((s.status ≠ .ok ∨ s.window = none ∧ s.pc ≠ pcReset) ∧ step s = .next s) ∨
    (s.status = .ok ∧ ∃ w, s.window = some w ∧ step s = runWindow w s) ∨
    (s.status = .ok ∧ s.window = none ∧ s.pc = pcReset ∧
      step s = runWindow { lo := 1, hi := 1 } (seed s)) := by
  by_cases hs : s.status = .ok
  · cases hw : s.window with
    | some w => exact .inr (.inl ⟨hs, w, rfl, step_window hs hw⟩)
    | none =>
      by_cases hp : s.pc = pcReset
      · exact .inr (.inr ⟨hs, rfl, hp, step_seed hs hw hp⟩)
      · exact .inl ⟨.inr ⟨rfl, hp⟩, step_completed hs hw hp⟩
  · exact .inl ⟨.inl hs, step_faulted hs⟩

theorem runWindow_imem_cfg {w : Window} {s t : State} (hs : s.status = .ok)
    (h : runWindow w s = .next t) : t.imem = s.imem ∧ t.cfg = s.cfg :=
  have late := runWindow_keptFromExOn hs h
  have early := afterMem_kept w s
  ⟨late.imem.trans early.imem, late.cfg.trans early.cfg⟩

/-- EX keeps pc a multiple of 4: the targets of BEQ and J are multiples of 4, and JR checks its own
(43_control.md R131 to R133). -/
theorem ExEffect.pc_aligned {s t : State} (h : ExEffect s t) (ha : isAligned s.pc = true) :
    isAligned t.pc = true := by
  cases h with
  | raises k => exact ha
  | writes i d a v p _ done => exact done.pcAligned ha

/-- A cycle answers a next state when pc is a multiple of 4 and MEM's access, if it makes one, is at a checked
address. -/
theorem runWindow_total {w : Window} {s : State} (hs : s.status = .ok) (hl : w.legal)
    (ha : isAligned s.pc = true)
    (haccess : w.has 4 → s.exmem.isAccess → legalDataAddress s.exmem.memoryTarget = true) :
    ∃ t, runWindow w s = .next t := by
  have hmem : isAligned (afterMem w s).pc = true := by rw [(afterMem_kept w s).pc]; exact ha
  obtain ⟨u, hu, heffect⟩ := runStage_ex w (afterMem w s) ((afterMem_kept w s).status.trans hs)
  have hpc : isAligned u.pc = true := by
    split at heffect
    · exact heffect.pc_aligned hmem
    · rw [heffect]; exact hmem
  rw [runWindow_eq (beforeEx_eq w s hs haccess) hu]
  exact afterEx_total hl hpc

/-- When MEM is in the window of a legal state, the access it makes passed EX's checks (R187 (g),
42_loadstore.md R120). -/
theorem State.Inv.access_legal {s : State} (hinv : s.Inv) (hs : s.status = .ok) {w : Window}
    (hw : s.window = some w) (h4 : w.has 4) (haccess : s.exmem.isAccess) :
    legalDataAddress s.exmem.memoryTarget = true :=
  hinv.exmemAddress (hinv.exmemValid hs w hw h4) haccess

end Sys2Proof.Machine

namespace Sys2Proof.Proofs

open Sys2Proof.Machine

/-- Settles O47: no stage of a cycle writes the instruction store or a parameter, and seeding writes neither. -/
theorem stepNeverWritesInstructions : Obligations.StepNeverWritesInstructions := by
  unfold Obligations.StepNeverWritesInstructions
  intro s t h
  rcases step_cases s with ⟨-, hstep⟩ | ⟨hs, w, -, hstep⟩ | ⟨hs, -, -, hstep⟩
  · obtain rfl : s = t := Host.Outcome.next.inj (hstep.symm.trans h)
    exact ⟨rfl, rfl⟩
  · exact runWindow_imem_cfg hs (hstep.symm.trans h)
  · -- `seed` keeps the status, the instruction store and the parameters, each by `rfl`
    exact runWindow_imem_cfg (s := seed s) hs (hstep.symm.trans h)

/-- Settles O50: legality gives the aligned pc that IF and the look-ahead need and the checked address that MEM
needs; EX always answers. A seeded cycle has no MEM in its window. -/
theorem legalStatesAlwaysStep : Obligations.LegalStatesAlwaysStep := by
  unfold Obligations.LegalStatesAlwaysStep
  intro s hinv
  rcases step_cases s with ⟨-, hstep⟩ | ⟨hs, w, hw, hstep⟩ | ⟨hs, -, -, hstep⟩
  · exact ⟨s, hstep⟩
  · rw [hstep]
    exact runWindow_total hs (hinv.windowLegal w hw) hinv.pcAligned (hinv.access_legal hs hw)
  · rw [hstep]
    exact runWindow_total (s := seed s) hs (by decide) hinv.pcAligned
      (fun h4 => absurd h4 (by decide))

end Sys2Proof.Proofs
end

section
/-! The fields of a word the encoder assembles, the word assembled from the fields of another, and what a match
under a mask says of the fields it covers (30_encoding.md R61, R62, R64, R68). -/

namespace Sys2Proof

/-! ### The fields of an assembled word -/

theorem toFin_regBits (r : RegIdx) : (regBits r).toFin = r :=
  Fin.ext (by simp [regBits])

/-- Six parts put together, sliced at the bounds of format R. -/
theorem slices_appendR (a f : BitVec 6) (b c d e : BitVec 5) :
    (a ++ b ++ c ++ d ++ e ++ f).extractLsb' 26 6 = a ∧
    (a ++ b ++ c ++ d ++ e ++ f).extractLsb' 21 5 = b ∧
    (a ++ b ++ c ++ d ++ e ++ f).extractLsb' 16 5 = c ∧
    (a ++ b ++ c ++ d ++ e ++ f).extractLsb' 11 5 = d ∧
    (a ++ b ++ c ++ d ++ e ++ f).extractLsb' 0 6 = f := by
  -- the sums of the widths stay as they are: the lemmas on `++` match them
  simp [-Nat.reduceAdd, BitVec.extractLsb'_append_eq_of_le, BitVec.extractLsb'_append_eq_right]

/-- Four parts put together, sliced at the bounds of format I. -/
theorem slices_appendI (a : BitVec 6) (b c : BitVec 5) (d : BitVec 16) :
    (a ++ b ++ c ++ d).extractLsb' 26 6 = a ∧ (a ++ b ++ c ++ d).extractLsb' 21 5 = b ∧
    (a ++ b ++ c ++ d).extractLsb' 16 5 = c ∧ (a ++ b ++ c ++ d).extractLsb' 0 16 = d := by
  simp [-Nat.reduceAdd, BitVec.extractLsb'_append_eq_of_le, BitVec.extractLsb'_append_eq_right]

@[simp] theorem fields_wordR (rs rt rd : RegIdx) (funct : BitVec 6) :
    opcodeField (wordR rs rt rd funct) = 0#6 ∧ rsField (wordR rs rt rd funct) = rs ∧
    rtField (wordR rs rt rd funct) = rt ∧ rdField (wordR rs rt rd funct) = rd ∧
    functField (wordR rs rt rd funct) = funct := by
  obtain ⟨hop, hrs, hrt, hrd, hfunct⟩ :=
    slices_appendR 0#6 funct (regBits rs) (regBits rt) (regBits rd) 0#5
  exact ⟨hop, (congrArg BitVec.toFin hrs).trans (toFin_regBits rs),
    (congrArg BitVec.toFin hrt).trans (toFin_regBits rt),
    (congrArg BitVec.toFin hrd).trans (toFin_regBits rd), hfunct⟩

@[simp] theorem fields_wordI (op : BitVec 6) (rs rt : RegIdx) (imm : BitVec 16) :
    opcodeField (wordI op rs rt imm) = op ∧ rsField (wordI op rs rt imm) = rs ∧
    rtField (wordI op rs rt imm) = rt ∧ immediateField (wordI op rs rt imm) = imm := by
  obtain ⟨hop, hrs, hrt, himm⟩ := slices_appendI op (regBits rs) (regBits rt) imm
  exact ⟨hop, (congrArg BitVec.toFin hrs).trans (toFin_regBits rs),
    (congrArg BitVec.toFin hrt).trans (toFin_regBits rt), himm⟩

@[simp] theorem fields_wordJ (op : BitVec 6) (idx : BitVec 26) :
    opcodeField (wordJ op idx) = op ∧ pseudoAddressField (wordJ op idx) = idx :=
  ⟨BitVec.extractLsb'_append_eq_left, BitVec.extractLsb'_append_eq_right⟩

/-! ### Assembling the fields of a word -/

/-- Format R loses `shamt` only. -/
theorem wordR_of_fields {fn : BitVec 6} {w : Word} (hop : opcodeField w = 0#6) (hfn : functField w = fn) :
    wordR (rsField w) (rtField w) (rdField w) fn = w &&& 0xFFFFF83F#32 := by
  have masked : ∀ (a f : BitVec 6) (b c d e : BitVec 5),
      (a ++ b ++ c ++ d ++ e ++ f) &&& (BitVec.allOnes 6 ++ BitVec.allOnes 5 ++ BitVec.allOnes 5 ++
        BitVec.allOnes 5 ++ 0#5 ++ BitVec.allOnes 6) = a ++ b ++ c ++ d ++ 0#5 ++ f := by
    intros
    simp only [BitVec.and_append, BitVec.and_zero, BitVec.and_allOnes]
  conv_rhs => rw [← fieldsR_append w, hop, hfn]
  exact (masked _ _ _ _ _ _).symm

/-- With `rt` and `rd` written 0, format R keeps `rs` and `funct`. -/
theorem wordR_of_rs_funct {fn : BitVec 6} {w : Word} (hop : opcodeField w = 0#6)
    (hfn : functField w = fn) : wordR (rsField w) 0 0 fn = w &&& 0xFFE0003F#32 := by
  have masked : ∀ (a f : BitVec 6) (b c d e : BitVec 5),
      (a ++ b ++ c ++ d ++ e ++ f) &&& (BitVec.allOnes 6 ++ BitVec.allOnes 5 ++ 0#5 ++ 0#5 ++ 0#5 ++
        BitVec.allOnes 6) = a ++ b ++ 0#5 ++ 0#5 ++ 0#5 ++ f := by
    intros
    simp only [BitVec.and_append, BitVec.and_zero, BitVec.and_allOnes]
  conv_rhs => rw [← fieldsR_append w, hop, hfn]
  exact (masked _ _ _ _ _ _).symm

theorem wordI_of_fields {op : BitVec 6} {w : Word} (hop : opcodeField w = op) :
    wordI op (rsField w) (rtField w) (immediateField w) = w := by
  rw [← hop]
  exact fieldsI_append w

theorem wordJ_of_fields {op : BitVec 6} {w : Word} (hop : opcodeField w = op) :
    wordJ op (pseudoAddressField w) = w := by
  rw [← hop]
  exact fieldsJ_append w

/-! ### Fields that a mask covers -/

/-- The mask of an instruction that ignores no bit. -/
theorem and_fullMask (w : Word) : w &&& 0xFFFFFFFF#32 = w := BitVec.and_allOnes

theorem extractLsb'_of_and_eq {w m p : Word} (h : w &&& m = p) {start len : Nat}
    (covered : m.extractLsb' start len = BitVec.allOnes len) :
    w.extractLsb' start len = p.extractLsb' start len := by
  rw [← h, BitVec.extractLsb'_and, covered, BitVec.and_allOnes]

theorem extractLsb'_congr_of_and_eq {w w' m : Word} (h : w &&& m = w' &&& m) {start len : Nat}
    (covered : m.extractLsb' start len = BitVec.allOnes len) :
    w.extractLsb' start len = w'.extractLsb' start len :=
  (extractLsb'_of_and_eq h covered).trans (extractLsb'_of_and_eq rfl covered).symm

/-- The mask of ADD and AND (R64). -/
theorem fieldsR_congr {w w' : Word} (h : w &&& 0xFFFFF83F#32 = w' &&& 0xFFFFF83F#32) :
    opcodeField w = opcodeField w' ∧ rsField w = rsField w' ∧ rtField w = rtField w' ∧
    rdField w = rdField w' ∧ functField w = functField w' :=
  ⟨extractLsb'_congr_of_and_eq h (by decide),
    congrArg BitVec.toFin (extractLsb'_congr_of_and_eq h (by decide)),
    congrArg BitVec.toFin (extractLsb'_congr_of_and_eq h (by decide)),
    congrArg BitVec.toFin (extractLsb'_congr_of_and_eq h (by decide)),
    extractLsb'_congr_of_and_eq h (by decide)⟩

/-- The mask of JR (R64). -/
theorem fields_rs_funct_congr {w w' : Word} (h : w &&& 0xFFE0003F#32 = w' &&& 0xFFE0003F#32) :
    opcodeField w = opcodeField w' ∧ rsField w = rsField w' ∧ functField w = functField w' :=
  ⟨extractLsb'_congr_of_and_eq h (by decide),
    congrArg BitVec.toFin (extractLsb'_congr_of_and_eq h (by decide)),
    extractLsb'_congr_of_and_eq h (by decide)⟩

end Sys2Proof
end

section
/-! The decoder, inverted once, the immediates it reads, and what the encoder, the ignored bits and the opcode map
have to do with it (30_encoding.md R63 to R69). -/

namespace Sys2Proof

/-- What a word decodes to, selector by selector (R68): `op` is the opcode dispatched on. -/
inductive Decodes (op : BitVec 6) (w : Word) : Instr → Prop where
  | add (hop : op = 0#6) (hfn : functField w = 32#6) : Decodes op w (.add (rdField w) (rsField w) (rtField w))
  | and (hop : op = 0#6) (hfn : functField w = 36#6) : Decodes op w (.and (rdField w) (rsField w) (rtField w))
  | jr (hop : op = 0#6) (hfn : functField w = 8#6) : Decodes op w (.jr (rsField w))
  | addi (hop : op = 8#6) : Decodes op w (.addi (rtField w) (rsField w) (immediateField w).toInt)
  | andi (hop : op = 12#6) : Decodes op w (.andi (rtField w) (rsField w) (immediateField w).toNat)
  | lw (hop : op = 35#6) : Decodes op w (.lw (rtField w) (immediateField w).toInt (rsField w))
  | sw (hop : op = 43#6) : Decodes op w (.sw (rtField w) (immediateField w).toInt (rsField w))
  | beq (hop : op = 4#6) : Decodes op w (.beq (rsField w) (rtField w) (immediateField w).toInt)
  | j (hop : op = 2#6) : Decodes op w (.j (pseudoAddressField w).toNat)

theorem decodeWith_eq_some_iff {op : BitVec 6} {w : Word} {i : Instr} :
    decodeWith op w = some i ↔ Decodes op w i := by
  constructor
  · intro h
    unfold decodeWith at h
    split_ifs at h with h0 hadd hand hjr haddi handi hlw hsw hbeq hj <;> obtain rfl := Option.some.inj h
    · exact .add h0 hadd
    · exact .and h0 hand
    · exact .jr h0 hjr
    · exact .addi haddi
    · exact .andi handi
    · exact .lw hlw
    · exact .sw hsw
    · exact .beq hbeq
    · exact .j hj
  · intro h
    cases h <;> simp [decodeWith, *]

theorem decodeWord_eq_some_iff {w : Word} {i : Instr} :
    decodeWord w = some i ↔ Decodes (opcodeField w) w i :=
  decodeWith_eq_some_iff

theorem decodeWith_eq_none_iff {op : BitVec 6} {w : Word} :
    decodeWith op w = none ↔
      op.toNat ∉ [0, 2, 4, 8, 12, 35, 43] ∨ (op.toNat = 0 ∧ (functField w).toNat ∉ [8, 32, 36]) := by
  by_cases hop : op = 0#6
  · -- funct is examined, in the order 32, 36, 8
    subst hop
    simp [decodeWith, ite_eq_iff', BitVec.toNat_eq]
    omega
  · simp [decodeWith, ite_eq_iff', BitVec.toNat_eq] at hop ⊢
    omega

/-! ### Immediates (R65, R66, R67) -/

theorem fitsSigned16_iff {n : Int} : fitsSigned16 n = true ↔ -32768 ≤ n ∧ n ≤ 32767 :=
  decide_eq_true_iff

theorem fitsSigned16_toInt (b : BitVec 16) : fitsSigned16 b.toInt = true := by
  have low := b.le_toInt
  have high := b.toInt_lt
  rw [fitsSigned16_iff]
  omega

theorem toInt_ofInt_of_fitsSigned16 {n : Int} (h : fitsSigned16 n = true) :
    (BitVec.ofInt 16 n).toInt = n := by
  rw [fitsSigned16_iff] at h
  exact BitVec.toInt_ofInt_eq_self (by decide) (by omega) (by omega)

theorem fitsUnsigned16_iff {n : Nat} : fitsUnsigned16 n = true ↔ n < 65536 :=
  decide_eq_true_iff

theorem fitsUnsigned26_iff {n : Nat} : fitsUnsigned26 n = true ↔ n < 67108864 :=
  decide_eq_true_iff

/-- The operands read from a word fit the fields they are read from. -/
theorem Decodes.wellFormed {op : BitVec 6} {w : Word} {i : Instr} (h : Decodes op w i) :
    i.wellFormed = true := by
  cases h with
  | add | and | jr => rfl
  | addi | lw | sw | beq => exact fitsSigned16_toInt _
  | andi => exact fitsUnsigned16_iff.mpr (immediateField w).isLt
  | j => exact fitsUnsigned26_iff.mpr (pseudoAddressField w).isLt

/-- The encoder puts the decoded operands back where they were read, and 0 in the ignored fields (R64, R72). -/
theorem Decodes.encode_eq {w : Word} {i : Instr} (h : Decodes (opcodeField w) w i) :
    encode i = w &&& i.usedBits := by
  cases h with
  | add hop hfn | and hop hfn => exact wordR_of_fields hop hfn
  | jr hop hfn => exact wordR_of_rs_funct hop hfn
  | addi hop | lw hop | sw hop | beq hop =>
    rw [encode, BitVec.ofInt_toInt, wordI_of_fields hop, Instr.usedBits, and_fullMask]
  | andi hop =>
    rw [encode, BitVec.ofNat_toNat, BitVec.setWidth_eq, wordI_of_fields hop, Instr.usedBits, and_fullMask]
  | j hop =>
    rw [encode, BitVec.ofNat_toNat, BitVec.setWidth_eq, wordJ_of_fields hop, Instr.usedBits, and_fullMask]

/-- A word that agrees with a decoded one in the bits its instruction uses decodes to the same (R64). -/
theorem Decodes.of_and_usedBits_eq {w w' : Word} {i : Instr} (h : Decodes (opcodeField w) w i)
    (agree : w &&& i.usedBits = w' &&& i.usedBits) : Decodes (opcodeField w') w' i := by
  have hw := h
  cases h with
  | add hop hfn =>
    obtain ⟨eop, ers, ert, erd, efn⟩ := fieldsR_congr agree
    rw [ers, ert, erd]
    exact .add (eop.symm.trans hop) (efn.symm.trans hfn)
  | and hop hfn =>
    obtain ⟨eop, ers, ert, erd, efn⟩ := fieldsR_congr agree
    rw [ers, ert, erd]
    exact .and (eop.symm.trans hop) (efn.symm.trans hfn)
  | jr hop hfn =>
    obtain ⟨eop, ers, efn⟩ := fields_rs_funct_congr agree
    rw [ers]
    exact .jr (eop.symm.trans hop) (efn.symm.trans hfn)
  | addi | andi | lw | sw | beq | j =>
    obtain rfl : w = w' := (and_fullMask w).symm.trans (agree.trans (and_fullMask w'))
    exact hw

/-! ### The rows of the opcode map (R68) -/

theorem encode_matches_own_row (i : Instr) :
    ∃ r ∈ opcodeMap, r.mnemonic = i.mnemonic ∧ r.matchesWord (encode i) = true := by
  cases i with
  | add rd rs rt => exact Laws.EncodedInOwnRow.add rd rs rt
  | addi rt rs imm => exact Laws.EncodedInOwnRow.addi rt rs imm
  | and rd rs rt => exact Laws.EncodedInOwnRow.and rd rs rt
  | andi rt rs imm => exact Laws.EncodedInOwnRow.andi rt rs imm
  | lw rt off rs => exact Laws.EncodedInOwnRow.lw rt off rs
  | sw rt off rs => exact Laws.EncodedInOwnRow.sw rt off rs
  | beq rs rt imm => exact Laws.EncodedInOwnRow.beq rs rt imm
  | j idx => exact Laws.EncodedInOwnRow.j idx
  | jr rs => exact Laws.EncodedInOwnRow.jr rs

/-- No row tests a bit that an instruction ignores (R64). -/
theorem usedBits_and_mask (i : Instr) {r : OpcodeRow} (hr : r ∈ opcodeMap) :
    i.usedBits &&& r.mask = r.mask := by
  revert r
  cases i <;> simp [opcodeMap, Instr.usedBits]

theorem OpcodeRow.matchesWord_iff {r : OpcodeRow} {w : Word} :
    r.matchesWord w = true ↔ w &&& r.mask = r.pattern :=
  decide_eq_true_iff

theorem OpcodeRow.matchesWord_and_usedBits (i : Instr) {r : OpcodeRow} (hr : r ∈ opcodeMap) (w : Word) :
    r.matchesWord (w &&& i.usedBits) = r.matchesWord w := by
  simp only [OpcodeRow.matchesWord, BitVec.and_assoc, usedBits_and_mask i hr]

theorem opcodeField_of_matchesWord {r : OpcodeRow} {w : Word} (hr : r ∈ opcodeMap)
    (h : r.matchesWord w = true) : opcodeField w = opcodeField r.pattern :=
  have covered : ∀ r ∈ opcodeMap, opcodeField r.mask = BitVec.allOnes 6 := by decide
  extractLsb'_of_and_eq (OpcodeRow.matchesWord_iff.mp h) (covered r hr)

theorem functField_of_matchesWord {r : OpcodeRow} {w : Word} (h : r.matchesWord w = true)
    (covered : functField r.mask = BitVec.allOnes 6) : functField w = functField r.pattern :=
  extractLsb'_of_and_eq (OpcodeRow.matchesWord_iff.mp h) covered

/-- A word in a row has the row's selector, so it decodes to an instruction of that name. -/
theorem decodes_of_matchesWord {r : OpcodeRow} {w : Word} (hr : r ∈ opcodeMap)
    (h : r.matchesWord w = true) : ∃ i, Decodes (opcodeField w) w i ∧ i.mnemonic = r.mnemonic := by
  have hop := opcodeField_of_matchesWord hr h
  have hfn := functField_of_matchesWord h
  simp only [opcodeMap, List.mem_cons, List.not_mem_nil, or_false] at hr
  rcases hr with rfl | rfl | rfl | rfl | rfl | rfl | rfl | rfl | rfl
  · exact ⟨_, .add hop (hfn (by decide)), rfl⟩
  · exact ⟨_, .addi hop, rfl⟩
  · exact ⟨_, .and hop (hfn (by decide)), rfl⟩
  · exact ⟨_, .andi hop, rfl⟩
  · exact ⟨_, .lw hop, rfl⟩
  · exact ⟨_, .sw hop, rfl⟩
  · exact ⟨_, .beq hop, rfl⟩
  · exact ⟨_, .j hop, rfl⟩
  · exact ⟨_, .jr hop (hfn (by decide)), rfl⟩

end Sys2Proof

namespace Sys2Proof.Proofs

/-- Settles O1, by instruction: the fields of the assembled word are the operands' bits, and an operand that fits
its field is read back from them. -/
theorem decodeOfEncodeIsIdentity : Obligations.DecodeOfEncodeIsIdentity := by
  unfold Obligations.DecodeOfEncodeIsIdentity
  intro i hi
  cases i with
  | add | and | jr => simp [encode, decodeWord, decodeWith]
  | addi | lw | sw | beq => simp [encode, decodeWord, decodeWith, toInt_ofInt_of_fitsSigned16 hi]
  | andi => simp [encode, decodeWord, decodeWith, Nat.mod_eq_of_lt (fitsUnsigned16_iff.mp hi)]
  | j => simp [encode, decodeWord, decodeWith, Nat.mod_eq_of_lt (fitsUnsigned26_iff.mp hi)]

/-- Settles O2, from the decoder's inversion: each format's fields, assembled again, give the word back but for
the bits the instruction ignores. -/
theorem decodedInstructionsEncodeBack : Obligations.DecodedInstructionsEncodeBack := by
  unfold Obligations.DecodedInstructionsEncodeBack
  intro w i h
  have hd := decodeWord_eq_some_iff.mp h
  exact ⟨hd.wellFormed, hd.encode_eq⟩

/-- Settles O3. One way, the encoded instruction lies in its own row, and the word differs from it only in bits
no row tests; the other way, a row fixes the selector. -/
theorem decoderAgreesWithOpcodeMap : Obligations.DecoderAgreesWithOpcodeMap := by
  unfold Obligations.DecoderAgreesWithOpcodeMap
  constructor
  · intro w i h
    obtain ⟨r, hr, hname, hmatch⟩ := encode_matches_own_row i
    rw [(decodeWord_eq_some_iff.mp h).encode_eq, OpcodeRow.matchesWord_and_usedBits i hr] at hmatch
    exact ⟨r, hr, hname, hmatch⟩
  · intro w r hr hmatch
    obtain ⟨i, hd, hname⟩ := decodes_of_matchesWord hr hmatch
    exact ⟨i, decodeWord_eq_some_iff.mpr hd, hname⟩

/-- Settles O4: the bits an instruction uses cover the fields it is decoded from. -/
theorem ignoredFieldsDoNotChangeDecoding : Obligations.IgnoredFieldsDoNotChangeDecoding := by
  unfold Obligations.IgnoredFieldsDoNotChangeDecoding
  intro w w' i h agree
  exact decodeWord_eq_some_iff.mpr ((decodeWord_eq_some_iff.mp h).of_and_usedBits_eq agree)

/-- Settles O5: the dispatch falls through exactly outside the nine selectors. -/
theorem unrecognizedWordsAreTheOthers : Obligations.UnrecognizedWordsAreTheOthers := by
  unfold Obligations.UnrecognizedWordsAreTheOthers
  intro w
  exact decodeWith_eq_none_iff

/-- Settles O6, by evaluating the decoder. -/
theorem specWordsDecodeAsWritten : Obligations.SpecWordsDecodeAsWritten := by
  unfold Obligations.SpecWordsDecodeAsWritten
  decide

end Sys2Proof.Proofs
end

section
/-! The stages one by one (40_pipeline.md R88 to R94): what each answers from every state, and where EX's operands
come from (R91, R97). -/

namespace Sys2Proof.Machine

theorem isTransfer_eq_false {i : Instr} (hbeq : ∀ rs rt imm, i ≠ .beq rs rt imm) (hj : ∀ idx, i ≠ .j idx)
    (hjr : ∀ rs, i ≠ .jr rs) : isTransfer i = false := by
  cases i with
  | beq rs rt imm => exact absurd rfl (hbeq rs rt imm)
  | j idx => exact absurd rfl (hj idx)
  | jr rs => exact absurd rfl (hjr rs)
  | add | addi | and | andi | lw | sw => rfl

theorem fwd_eq (s : State) (i : RegIdx) :
    fwd s i =
      if s.exmem.valid = true ∧ s.exmem.registerTarget = some i then s.exmem.writeVal else s.x[i.val] := by
  simp only [fwd, Bool.and_eq_true, beq_iff_eq]

theorem opcodeField_toNat (w : Word) : (opcodeField w).toNat = w.toNat / 2 ^ 26 := by
  have := w.isLt
  rw [opcodeField, BitVec.extractLsb'_toNat, Nat.shiftRight_eq_div_pow]
  omega

/-- What MEM passes on for an instruction that is no load or store (40_pipeline.md R93). -/
theorem mem_of_not_access {s : State} (h : ¬ s.exmem.isAccess) :
    memTarget s = s.exmem.registerTarget ∧ memValue s = some s.exmem.writeVal ∧ memAfter s = s.dmem := by
  obtain ⟨h35, h43⟩ := not_or.mp h
  exact ⟨if_neg h43, (if_neg h35).trans (if_neg h43), if_neg h43⟩

/-- What MEM passes on for a load. -/
theorem mem_of_load {s : State} (h : s.exmem.opcode = 35#6) :
    memTarget s = s.exmem.registerTarget ∧
    memValue s = some (s.dmem.read (cellIndex s.exmem.memoryTarget)) ∧ memAfter s = s.dmem := by
  have h43 : s.exmem.opcode ≠ 43#6 := by rw [h]; decide
  exact ⟨if_neg h43, if_pos h, if_neg h43⟩

/-- What MEM stores, and passes on, for a store. -/
theorem mem_of_store {s : State} (h : s.exmem.opcode = 43#6) :
    memTarget s = none ∧ memAfter s = s.dmem.write (cellIndex s.exmem.memoryTarget) s.exmem.writeVal :=
  ⟨if_pos h, if_pos h⟩

end Sys2Proof.Machine

namespace Sys2Proof.Proofs

open Sys2Proof.Machine

/-- Settles O21, from the two things a handler can do: it raises, or it writes EX/MEM and perhaps pc. -/
theorem exTouchesOnlyItsOutputs : Obligations.ExTouchesOnlyItsOutputs := by
  unfold Obligations.ExTouchesOnlyItsOutputs
  intro i s
  rcases exec_cases i s with ⟨k, hraise⟩ | ⟨d, a, v, p, hdone⟩
  · exact ⟨raiseInEx k s, hraise, rfl, rfl, fun _ => rfl, rfl, rfl, rfl, rfl, rfl, rfl, fun _ _ _ => rfl,
      .inl ⟨k, rfl⟩⟩
  · exact ⟨_, hdone.result, rfl, rfl, fun _ => rfl, rfl, rfl, rfl, rfl, rfl, rfl,
      fun hbeq hj hjr => hdone.pcKept (isTransfer_eq_false hbeq hj hjr),
      .inr ⟨rfl, rfl, rfl, rfl, hdone.destination⟩⟩

/-- Settles O22: WB is the register write alone. -/
theorem wbWritesOnlyItsDestination : Obligations.WbWritesOnlyItsDestination := by
  unfold Obligations.WbWritesOnlyItsDestination
  intro s
  refine ⟨_, rfl, ?_, writeRegister_x _ _ s⟩
  unfold writeRegister
  split
  · rfl
  · split <;> rfl

/-- Settles O23, by what the latch holds: a store, a load, or neither. -/
theorem memStageAccessesOneCell : Obligations.MemStageAccessesOneCell := by
  unfold Obligations.MemStageAccessesOneCell
  intro s hlegal
  refine ⟨_, memStage_eq s hlegal, rfl, rfl, rfl, rfl, fun hstore => ?_, fun hload => ?_, fun hneither => ?_⟩
  · obtain ⟨htarget, hdmem⟩ := mem_of_store hstore
    refine ⟨htarget, fun a => ?_⟩
    rw [writeMemwb_dmem, hdmem]
    exact Memory.read_write ..
  · obtain ⟨htarget, hvalue, hdmem⟩ := mem_of_load hload
    exact ⟨htarget, by rw [hvalue]; rfl, hdmem⟩
  · obtain ⟨htarget, hvalue, hdmem⟩ := mem_of_not_access hneither
    exact ⟨htarget, by rw [hvalue]; rfl, hdmem⟩

/-- Settles O24: ID is the write of ID/EX alone. -/
theorem idCopiesOpcodeAndWord : Obligations.IdCopiesOpcodeAndWord := by
  unfold Obligations.IdCopiesOpcodeAndWord
  intro s
  exact ⟨writeIdex s.ifid.instructionWord s, rfl, rfl, rfl, rfl, opcodeField_toNat _, fun _ => rfl⟩

/-- Settles O25, by the two ends of IF's read at an aligned pc. -/
theorem ifFetchesSlotAtPc : Obligations.IfFetchesSlotAtPc := by
  unfold Obligations.IfFetchesSlotAtPc
  intro s hmod
  have ha := (isAligned_iff_toNat s.pc).mpr hmod
  constructor
  · intro hlt
    have hb := (inInstructionStore_iff_toNat s.pc).mpr hlt
    exact ⟨afterIf s, ifStage_word ha hb, rfl, rfl, congrArg s.imem.read (slotIndex_eq hlt), afterIf_pc hb⟩
  · intro hge
    have hb : ¬ inInstructionStore s.pc = true := by rw [inInstructionStore_iff_toNat]; omega
    exact ifStage_outOfBounds ha hb

/-- Settles O26. -/
theorem sourceReadsForwardFromExmem : Obligations.SourceReadsForwardFromExmem := by
  unfold Obligations.SourceReadsForwardFromExmem
  intro s i
  rw [fwd_eq]
  constructor
  · intro hvalid htarget
    exact if_pos ⟨hvalid, htarget⟩
  · rintro (hinvalid | hother)
    · exact if_neg fun h => Bool.false_ne_true (hinvalid.symm.trans h.1)
    · exact if_neg fun h => hother h.2

/-- Settles O27: WB and MEM keep EX/MEM, and of the two only WB writes a register. -/
theorem exReadsResultsOneAndTwoBack : Obligations.ExReadsResultsOneAndTwoBack := by
  unfold Obligations.ExReadsResultsOneAndTwoBack
  intro s t w i hs _ hbefore
  obtain ⟨-, rfl⟩ := beforeEx_next hs hbefore
  rw [fwd_eq, (afterMem_kept w s).exmem, afterMem_x]

end Sys2Proof.Proofs
end

section
/-! One cycle with EX or a drain (40_pipeline.md R81 to R97): EX's part, what a cycle that does not fault hands on,
and the next window. -/

namespace Sys2Proof.Machine

/-! ### The EX slot -/

theorem ExEffect.keeps {m u : State} (h : ExEffect m u) :
    u.ifid = m.ifid ∧ u.idex = m.idex ∧ u.window = m.window := by
  cases h with
  | raises k => exact ⟨rfl, rfl, rfl⟩
  | writes i d a v p _ _ => exact ⟨rfl, rfl, rfl⟩

/-- An EX that does not raise has passed its instruction on to EX/MEM (40_pipeline.md R92, R95). -/
theorem ExEffect.exmem_of_ok {m u : State} (h : ExEffect m u) (hu : u.status = .ok) :
    u.exmem.instructionWord = m.idex.instructionWord ∧ u.exmem.valid = true := by
  cases h with
  | raises k => cases hu
  | writes i d a v p _ _ => exact ⟨rfl, rfl⟩

/-- An EX that raises has written the status and nothing else (40_pipeline.md R98). -/
theorem ExEffect.eq_of_faulted {m u : State} {k : FaultKind} {info : Word} (h : ExEffect m u)
    (hm : m.status = .ok) (hu : u.status = .faulted k info) : u = raiseInEx k m := by
  cases h with
  | raises k' =>
    obtain ⟨rfl, -⟩ := Status.faulted.inj hu
    rfl
  | writes i d a v p _ _ => cases hm.symm.trans hu

theorem exStage_exEffect {m u : State} (h : exStage m = .next u) : ExEffect m u := by
  obtain ⟨u', hu', heffect⟩ := exStage_effect m
  obtain rfl : u' = u := Host.Outcome.next.inj (hu'.symm.trans h)
  exact heffect

theorem exSlot_ifid {w : Window} {m u : State} (h : if w.has 3 then ExEffect m u else u = m) :
    u.ifid = m.ifid := by
  split at h
  · exact h.keeps.1
  · rw [h]

/-- After EX, the step is the rest of its cycle. -/
theorem step_eq_afterEx {s m u : State} {w : Window} (hs : s.status = .ok) (hw : s.window = some w)
    (hbefore : beforeEx w s = .next m) (hex : runStage w 3 exStage m = .next u) : step s = afterEx w u := by
  rw [step_window hs hw, runWindow_eq hbefore hex]

/-! ### The next window (40_pipeline.md R84, R85, R87) -/

theorem nextWindow_eq_some {lo hi : Nat} (h : lo ≤ min (hi + 1) 5) :
    nextWindow lo hi = some { lo := lo, hi := min (hi + 1) 5 } :=
  if_neg (by omega)

theorem nextWindow_eq_none {lo hi : Nat} (h : 5 < lo) : nextWindow lo hi = none :=
  if_pos (by omega)

/-- The lower bound the scheduler gives the next window, `t` being the state the cycle leaves. -/
def nextLo (w : Window) (t : State) : Nat :=
  if w.lo = 1 then (if t.imem.read (slotIndex t.pc) = 0 then 2 else 1) else w.lo + 1

theorem nextLo_lookAhead {w : Window} (t : State) (h : w.lo = 1) :
    nextLo w t = if t.imem.read (slotIndex t.pc) = 0 then 2 else 1 := if_pos h

theorem nextLo_drain {w : Window} (t : State) (h : w.lo ≠ 1) : nextLo w t = w.lo + 1 := if_neg h

theorem nextLo_le (w : Window) (t : State) : nextLo w t ≤ w.lo + 1 := by
  unfold nextLo
  split
  · split <;> omega
  · omega

/-! ### A cycle that does not fault -/

/-- What the part of the cycle after EX does when no stage raises (40_pipeline.md R84, R89, R95). -/
structure Advances (w : Window) (u t : State) : Prop where
  exOk      : u.status = .ok
  idex      : t.idex = (afterId w u).idex
  exmem     : t.exmem = u.exmem
  window    : t.window = nextWindow (nextLo w t) w.hi
  fetchable : w.lo = 1 → inInstructionStore t.pc = true

theorem CycleEnd.advances {w : Window} {u t : State} (h : CycleEnd w u t) (ht : t.status = .ok) :
    Advances w u t := by
  have hexmem : (afterId w u).exmem = u.exmem := (afterId_kept w u).2.2.2.2.2.1
  cases h with
  | aborted hu => exact absurd ht hu
  | noFetch => cases ht
  | noLookAhead => cases ht
  | drained hu hl =>
    exact ⟨hu, rfl, hexmem, congrArg (nextWindow · w.hi) (nextLo_drain _ hl).symm, fun h1 => absurd h1 hl⟩
  | fetched hu hl _ _ hn =>
    exact ⟨hu, rfl, hexmem, congrArg (nextWindow · w.hi) (nextLo_lookAhead _ hl).symm, fun _ => hn⟩

/-- A step that ends with status OK is WB and MEM, an EX that does not raise, and a full rest of the cycle. -/
theorem step_advances {s t : State} {w : Window} (hs : s.status = .ok) (hw : s.window = some w)
    (hl : w.legal) (h : step s = .next t) (ht : t.status = .ok) :
    ∃ u, (if w.has 3 then ExEffect (afterMem w s) u else u = afterMem w s) ∧ Advances w u t := by
  rw [step_window hs hw] at h
  obtain ⟨-, u, -, heffect, hafter⟩ := runWindow_next hs h
  exact ⟨u, heffect, (afterEx_next hl hafter).advances ht⟩

/-- No stage in the window is dropped: each one's successor is in the next window (40_pipeline.md R96). -/
theorem Advances.has_succ {w : Window} {u t : State} (h : Advances w u t) {n : Nat} (hn : n < 5)
    (hw : w.has n) : ∃ w', t.window = some w' ∧ w'.has (n + 1) := by
  obtain ⟨hlo, hhi⟩ := hw
  have hle := nextLo_le w t
  exact ⟨_, h.window.trans (nextWindow_eq_some (by omega)), by simp only [Window.has]; omega⟩

/-- Past MEM no stage writes MEM/WB. -/
theorem step_memwb {s t : State} {w : Window} (hs : s.status = .ok) (hw : s.window = some w)
    (h : step s = .next t) : t.memwb = (afterMem w s).memwb := by
  rw [step_window hs hw] at h
  exact (runWindow_keptFromExOn hs h).memwb

/-! ### A cycle that fetches -/

/-- With lo = 1 and both pc's in the store, ID, IF and the look-ahead all run (40_pipeline.md R84, R88). -/
theorem afterEx_fetched {w : Window} {u : State} (hu : u.status = .ok) (hlo : w.lo = 1) (hhi : 1 ≤ w.hi)
    (ha : isAligned u.pc = true) (hb : inInstructionStore u.pc = true)
    (hn : inInstructionStore (afterIf (afterId w u)).pc = true) :
    afterEx w u = .next { afterIf (afterId w u) with
      window := nextWindow
        (if (afterIf (afterId w u)).imem.read (slotIndex (afterIf (afterId w u)).pc) = 0 then 2 else 1)
        w.hi } := by
  obtain ⟨-, hpc, -, -, -, -, -, -, hstatus, -⟩ := afterId_kept w u
  rw [← hpc] at ha hb
  unfold afterEx
  rw [runStage_id w u hu, andThen_next, runStage_run (hstatus.trans hu) ⟨hlo.le, hhi⟩, ifStage_word ha hb,
    andThen_next]
  exact schedule_lookAhead (hstatus.trans hu) hlo (afterIf_aligned ha hb) hn

/-- The cycle that seeds has IF alone in its window (40_pipeline.md R82). -/
theorem step_seed_eq {s : State} (hs : s.status = .ok) (hw : s.window = none) (hp : s.pc = 0) :
    step s = afterEx { lo := 1, hi := 1 } (seed s) := by
  have hbefore : beforeEx { lo := 1, hi := 1 } (seed s) = .next (seed s) :=
    beforeEx_eq _ (seed s) hs fun h4 => absurd h4 (by decide)
  rw [step_seed hs hw hp, runWindow_eq hbefore (runStage_skip (by decide))]

theorem afterId_skip {w : Window} {s : State} (h : ¬ w.has 2) : afterId w s = s := if_neg h

theorem afterIf_pc_of_zero {s : State} (hp : s.pc = 0) : (afterIf s).pc = 4 := by
  show word32 (s.pc.toInt + 4) = 4
  rw [hp]
  decide

end Sys2Proof.Machine

namespace Sys2Proof.Proofs

open Sys2Proof.Machine

/-- Settles O29: EX's dispatch on ID/EX is the decoder, and WB and MEM do not touch ID/EX. -/
theorem stepRunsDecodedInstruction : Obligations.StepRunsDecodedInstruction := by
  unfold Obligations.StepRunsDecodedInstruction
  intro s s1 w i hs hw h3 hop hdecode hbefore
  obtain ⟨-, rfl⟩ := beforeEx_next hs hbefore
  have hkept := afterMem_kept w s
  have hstatus := hkept.status.trans hs
  have hex : exStage (afterMem w s) = exec i (afterMem w s) := by
    unfold exStage
    rw [hkept.idex, hop, show decodeWith (opcodeField s.idex.instructionWord) s.idex.instructionWord = some i
      from hdecode]
  refine ⟨?_, hkept.idex, hkept.exmem, hkept.pc, hstatus⟩
  rw [step_window hs hw, runWindow, hbefore, andThen_next, runStage_run hstatus h3, hex]

/-- Settles O31: a raise in EX writes the status alone, nothing after EX runs, and a faulted machine stays. -/
theorem exFaultAbortsTheCycle : Obligations.ExFaultAbortsTheCycle := by
  unfold Obligations.ExFaultAbortsTheCycle
  intro s s1 s2 w k info hs hw h3 hbefore hex hfault
  obtain ⟨-, rfl⟩ := beforeEx_next hs hbefore
  have hkept := afterMem_kept w s
  have hstatus := hkept.status.trans hs
  have hraise : s2 = raiseInEx k (afterMem w s) := (exStage_exEffect hex).eq_of_faulted hstatus hfault
  have hnot : s2.status ≠ .ok := by rw [hfault]; exact Status.noConfusion
  have hstep := step_eq_afterEx hs hw hbefore ((runStage_run hstatus h3).trans hex)
  refine ⟨s2, hstep.trans (afterEx_faulted hnot), ?_, ?_⟩
  · rw [hraise, raiseInEx, raise, hkept.idex]
  · subst hraise
    exact ⟨hkept.pc, hkept.window, hkept.imem, hkept.ifid, hkept.idex, hkept.exmem, step_faulted hnot⟩

/-- Settles O34: with IF alone in the window the cycle is a fetch at pc 0 and a look-ahead at pc 4. -/
theorem seedingFetchesSlotZero : Obligations.SeedingFetchesSlotZero := by
  unfold Obligations.SeedingFetchesSlotZero
  intro s hs hw hp
  have hid : afterId { lo := 1, hi := 1 } (seed s) = seed s := afterId_skip (by decide)
  have hpc : (afterIf (seed s)).pc = 4 := afterIf_pc_of_zero (s := seed s) hp
  have hstep := (step_seed_eq hs hw hp).trans (afterEx_fetched (w := { lo := 1, hi := 1 }) hs rfl le_rfl
    (by rw [seed_pc, hp]; decide) (by rw [seed_pc, hp]; decide) (by rw [hid, hpc]; decide))
  rw [hid, hpc, show slotIndex 4 = 1 by decide] at hstep
  refine ⟨_, hstep, hs, hpc, rfl, ?_, rfl, rfl, rfl, rfl, rfl, ?_, fun i => ?_⟩
  · show s.imem.read (slotIndex s.pc) = s.imem.read 0
    rw [hp]
    rfl
  · exact nextWindow_eq_some (by split <;> decide)
  · rw [fwd_eq]
    exact if_neg fun h => Bool.false_ne_true h.1

/-- Settles O35: the scheduler's new lower bound, in each of the three ranges of lo. -/
theorem windowFollowsLookAhead : Obligations.WindowFollowsLookAhead := by
  unfold Obligations.WindowFollowsLookAhead
  intro s t w hs hw hl hstep ht
  obtain ⟨u, -, hadv⟩ := step_advances hs hw hl hstep ht
  obtain ⟨-, hle, hhi⟩ := hl
  refine ⟨fun h1 => ?_, fun h1 h5 => ?_, fun h5 => ?_⟩
  · have hpc := (inInstructionStore_iff_toNat _).mp (hadv.fetchable h1)
    have hlo := nextLo_le w t
    rw [← slotIndex_eq hpc, ← nextLo_lookAhead t h1]
    exact ⟨hadv.window.trans (nextWindow_eq_some (by omega)), hpc⟩
  · rw [hadv.window, nextLo_drain t (by omega)]
    exact nextWindow_eq_some (by omega)
  · rw [hadv.window, nextLo_drain t (by omega)]
    exact nextWindow_eq_none (by omega)

/-- Settles O36: after EX a draining cycle runs ID and the window shift, or nothing if EX has raised. -/
theorem drainNeverFetches : Obligations.DrainNeverFetches := by
  unfold Obligations.DrainNeverFetches
  intro s s1 s2 w hs hw hlo hbefore hex
  obtain ⟨-, rfl⟩ := beforeEx_next hs hbefore
  have hkept := afterMem_kept w s
  obtain ⟨u, hu, heffect⟩ := runStage_ex w (afterMem w s) (hkept.status.trans hs)
  obtain rfl : u = s2 := Host.Outcome.next.inj (hu.symm.trans hex)
  have hifid : u.ifid = s.ifid := (exSlot_ifid heffect).trans hkept.ifid
  have hstep := step_eq_afterEx hs hw hbefore hex
  by_cases hok : u.status = .ok
  · obtain ⟨-, kpc, -, -, kifid, kexmem, -, -, kstatus, -⟩ := afterId_kept w u
    exact ⟨_, hstep.trans (afterEx_drain hok hlo), kifid.trans hifid, kpc, kstatus, kexmem⟩
  · exact ⟨u, hstep.trans (afterEx_faulted hok), hifid, rfl, rfl, rfl⟩

/-- Settles O41: ID, EX and MEM each hand their word on, and every stage's successor is in the next window. -/
theorem eachInstructionAdvancesOneStage : Obligations.EachInstructionAdvancesOneStage := by
  unfold Obligations.EachInstructionAdvancesOneStage
  intro s t w hs hw hl hstep ht
  obtain ⟨u, heffect, hadv⟩ := step_advances hs hw hl hstep ht
  have hkept := afterMem_kept w s
  refine ⟨fun h2 => ?_, fun h3 => ?_, fun h4 => ?_, fun n hn => hadv.has_succ hn⟩
  · rw [hadv.idex, afterId, if_pos h2, ← hkept.ifid, ← exSlot_ifid heffect]
    exact ⟨rfl, rfl⟩
  · rw [if_pos h3] at heffect
    rw [hadv.exmem, ← hkept.idex]
    exact heffect.exmem_of_ok hadv.exOk
  · obtain ⟨hvalid, -, hword, -, -⟩ := afterMem_memwb w s h4
    rw [step_memwb hs hw hstep]
    exact ⟨hword, hvalid⟩

/-- Settles O42: MEM passes destination and value on, and WB of the next cycle, which is then in the window, writes
them whatever the rest of that cycle does. -/
theorem aluResultLandsTwoCyclesLater : Obligations.AluResultLandsTwoCyclesLater := by
  unfold Obligations.AluResultLandsTwoCyclesLater
  intro s t u w r hs hw hl h4 hneither hdest hr hstep ht hstep'
  obtain ⟨_, -, hadv⟩ := step_advances hs hw hl hstep ht
  obtain ⟨w', hw', h5⟩ := hadv.has_succ (by decide) h4
  obtain ⟨-, -, -, htarget, hvalue⟩ := afterMem_memwb w s h4
  obtain ⟨mtarget, mvalue, -⟩ := mem_of_not_access hneither
  have hmemwb := step_memwb hs hw hstep
  rw [stepWritesOnlyTheWbRegister t u w' r ht hw' hstep',
    if_pos ⟨h5, by rw [hmemwb, htarget, mtarget, hdest], hr⟩, hmemwb]
  exact hvalue _ mvalue

end Sys2Proof.Proofs
end

section
/-! A machine that has stopped stays as it is (40_pipeline.md R99). -/

namespace Sys2Proof.Machine

theorem run_of_step_eq_self {M : Host.Core} {s : M.State} (h : M.step s = .next s) (n : Nat) :
    M.run n s = .next s := by
  induction n with
  | zero => rfl
  | succ n ih => rw [Host.Core.run, h]; exact ih

end Sys2Proof.Machine

namespace Sys2Proof.Proofs

open Sys2Proof.Machine

/-- Settles O32: a faulted machine steps to itself. -/
theorem faultedMachineIsStuck : Obligations.FaultedMachineIsStuck := by
  unfold Obligations.FaultedMachineIsStuck
  intro s n k info hfault
  have hnot : s.status ≠ .ok := by rw [hfault]; exact Status.noConfusion
  exact ⟨run_of_step_eq_self (M := Sys2Proof.core) (step_faulted hnot) n, by rw [cycleResult, hfault], rfl⟩

/-- Settles O33: a completed machine whose pc is not 0 steps to itself. -/
theorem completedMachineIsStuck : Obligations.CompletedMachineIsStuck := by
  unfold Obligations.CompletedMachineIsStuck
  intro s n hs hw hp
  exact ⟨run_of_step_eq_self (M := Sys2Proof.core) (step_completed hs hw hp) n, by rw [cycleResult, hs, hw]⟩

end Sys2Proof.Proofs
end

section
/-! The end of run_to_completion() does not depend on STEP_GROUP (40_pipeline.md R100). -/

namespace Sys2Proof.Machine

/-! ### STEP_GROUP as data: nothing but the grouping reads it -/

/-- The state under another STEP_GROUP. -/
def State.withGroup (g : StepGroup) (s : State) : State := { s with cfg := { s.cfg with stepGroup := g } }

/-- Running under another STEP_GROUP gives the same end, under that STEP_GROUP. -/
def IgnoresGroup (f : State → Host.Outcome State Fault Refusal) : Prop :=
  ∀ (g : StepGroup) (s : State), f (s.withGroup g) = andThen (f s) fun t => .next (t.withGroup g)

section
variable (g : StepGroup) (s : State)

@[simp] theorem withGroup_pc : (s.withGroup g).pc = s.pc := rfl
@[simp] theorem withGroup_dmem : (s.withGroup g).dmem = s.dmem := rfl
@[simp] theorem withGroup_idex : (s.withGroup g).idex = s.idex := rfl
@[simp] theorem withGroup_exmem : (s.withGroup g).exmem = s.exmem := rfl
@[simp] theorem withGroup_memwb : (s.withGroup g).memwb = s.memwb := rfl
@[simp] theorem withGroup_status : (s.withGroup g).status = s.status := rfl
@[simp] theorem withGroup_jLimit : (s.withGroup g).cfg.jLimit = s.cfg.jLimit := rfl
@[simp] theorem fwd_withGroup (i : RegIdx) : fwd (s.withGroup g) i = fwd s i := rfl
@[simp] theorem effectiveAddress_withGroup (rs : RegIdx) (off : Int) :
    effectiveAddress (s.withGroup g) rs off = effectiveAddress s rs off := rfl
@[simp] theorem readSlot_withGroup : readSlot (s.withGroup g) = readSlot s := rfl

end

theorem andThen_assoc (o : Host.Outcome State Fault Refusal)
    (f h : State → Host.Outcome State Fault Refusal) :
    andThen (andThen o f) h = andThen o fun s => andThen (f s) h := by
  cases o <;> rfl

theorem IgnoresGroup.andThen {f h : State → Host.Outcome State Fault Refusal} (hf : IgnoresGroup f)
    (hh : IgnoresGroup h) : IgnoresGroup fun s => andThen (f s) h := by
  intro g s
  simp only [hf g s, andThen_assoc, andThen_next, hh g]

theorem IgnoresGroup.runStage {f : State → Host.Outcome State Fault Refusal} (hf : IgnoresGroup f)
    (w : Window) (n : Nat) : IgnoresGroup (runStage w n f) := by
  intro g s
  by_cases hs : s.status = .ok
  · by_cases hw : w.has n
    · rw [runStage_run hs hw, runStage_run (s := s.withGroup g) hs hw, hf]
    · rw [runStage_skip hw, runStage_skip hw, andThen_next]
  · rw [runStage_faulted hs, runStage_faulted (s := s.withGroup g) hs, andThen_next]

theorem ignoresGroup_wb : IgnoresGroup wbStage := by
  intro g s
  unfold wbStage writeRegister
  rw [withGroup_memwb]
  cases s.memwb.registerTarget with
  | none => rfl
  | some r =>
    by_cases hr : r = 0
    · simp only [if_pos hr]; rfl
    · simp only [if_neg hr]; rfl

theorem ignoresGroup_mem : IgnoresGroup memStage := by
  intro g s
  unfold memStage
  rw [withGroup_exmem, withGroup_dmem]
  split
  · split <;> rfl
  · split
    · split <;> rfl
    · rfl

theorem ignoresGroup_id : IgnoresGroup idStage := fun _ _ => rfl

theorem ignoresGroup_if : IgnoresGroup ifStage := by
  intro g s
  unfold ifStage
  rw [readSlot_withGroup]
  cases readSlot s <;> rfl

theorem ignoresGroup_schedule (w : Window) : IgnoresGroup (schedule w) := by
  intro g s
  unfold schedule
  rw [withGroup_status, readSlot_withGroup]
  split
  · split
    · cases readSlot s <;> rfl
    · rfl
  · rfl

theorem ignoresGroup_finishAlu (d : RegIdx) (r : Option Word) : IgnoresGroup (finishAlu d r) := by
  intro g s
  unfold finishAlu
  split
  · rfl
  · cases r <;> rfl

theorem ignoresGroup_lw (rt : RegIdx) (off : Int) (rs : RegIdx) : IgnoresGroup (execLw rt off rs) := by
  intro g s
  unfold execLw
  rw [effectiveAddress_withGroup]
  split
  · rfl
  · cases effectiveAddress s rs off <;> rfl

theorem ignoresGroup_sw (rt : RegIdx) (off : Int) (rs : RegIdx) : IgnoresGroup (execSw rt off rs) := by
  intro g s
  unfold execSw
  rw [effectiveAddress_withGroup]
  cases effectiveAddress s rs off <;> rfl

theorem ignoresGroup_beq (rs rt : RegIdx) (imm : Int) : IgnoresGroup (execBeq rs rt imm) := by
  intro g s
  unfold execBeq
  rw [fwd_withGroup, fwd_withGroup, withGroup_pc]
  split
  · split <;> rfl
  · rfl

theorem ignoresGroup_j (idx : Nat) : IgnoresGroup (execJ idx) := by
  intro g s
  unfold execJ
  rw [withGroup_jLimit, withGroup_pc]
  split <;> rfl

theorem ignoresGroup_jr (rs : RegIdx) : IgnoresGroup (execJr rs) := by
  intro g s
  unfold execJr
  rw [fwd_withGroup]
  split <;> rfl

theorem ignoresGroup_exec (i : Instr) : IgnoresGroup (exec i) := by
  intro g s
  cases i with
  | add rd rs rt => exact ignoresGroup_finishAlu rd (add32 (fwd s rs) (fwd s rt)) g s
  | addi rt rs imm => exact ignoresGroup_finishAlu rt (add32 (fwd s rs) (word32 imm)) g s
  | and rd rs rt => exact ignoresGroup_finishAlu rd (some (fwd s rs &&& fwd s rt)) g s
  | andi rt rs imm =>
    exact ignoresGroup_finishAlu rt (some (fwd s rs &&& andiOperand s.cfg.andiExt imm)) g s
  | lw rt off rs => exact ignoresGroup_lw rt off rs g s
  | sw rt off rs => exact ignoresGroup_sw rt off rs g s
  | beq rs rt imm => exact ignoresGroup_beq rs rt imm g s
  | j idx => exact ignoresGroup_j idx g s
  | jr rs => exact ignoresGroup_jr rs g s

theorem ignoresGroup_ex : IgnoresGroup exStage := by
  intro g s
  unfold exStage
  rw [withGroup_idex]
  cases decodeWith s.idex.opcode s.idex.instructionWord with
  | none => rfl
  | some i => exact ignoresGroup_exec i g s

theorem ignoresGroup_runWindow (w : Window) : IgnoresGroup (runWindow w) := by
  have before : IgnoresGroup (beforeEx w) :=
    (ignoresGroup_wb.runStage w 5).andThen (ignoresGroup_mem.runStage w 4)
  have after : IgnoresGroup (afterEx w) :=
    ((ignoresGroup_id.runStage w 2).andThen (ignoresGroup_if.runStage w 1)).andThen (ignoresGroup_schedule w)
  exact (before.andThen (ignoresGroup_ex.runStage w 3)).andThen after

theorem ignoresGroup_step : IgnoresGroup step := by
  intro g s
  rcases step_cases s with ⟨hstay, hstep⟩ | ⟨hs, w, hw, hstep⟩ | ⟨hs, hw, hp, hstep⟩
  · rw [hstep, andThen_next]
    rcases hstay with hs | ⟨hw, hp⟩
    · exact step_faulted hs
    · by_cases hs : s.status = .ok
      · exact step_completed (s := s.withGroup g) hs hw hp
      · exact step_faulted hs
  · rw [hstep, step_window (s := s.withGroup g) hs hw]
    exact ignoresGroup_runWindow w g s
  · rw [hstep, step_seed (s := s.withGroup g) hs hw hp]
    exact ignoresGroup_runWindow _ g (seed s)

/-! ### Consecutive cycles -/

/-- Go on for `n` more cycles unless the machine has stopped. -/
def goOn (n : Nat) (t : State) : Host.Outcome State Fault Refusal :=
  if cycleResult t = .running then cycles n t else .next t

theorem goOn_running {n : Nat} {t : State} (h : cycleResult t = .running) : goOn n t = cycles n t := if_pos h

theorem goOn_stopped {n : Nat} {t : State} (h : cycleResult t ≠ .running) : goOn n t = .next t := if_neg h

theorem cycles_succ (n : Nat) (s : State) : cycles (n + 1) s = andThen (step s) (goOn n) := rfl

theorem ignoresGroup_cycles (n : Nat) : IgnoresGroup (cycles n) := by
  induction n with
  | zero => exact fun _ _ => rfl
  | succ n ih =>
    have hgo : IgnoresGroup (goOn n) := by
      intro g s
      by_cases hr : cycleResult s = .running
      · rw [goOn_running hr, goOn_running (t := s.withGroup g) hr, ih]
      · rw [goOn_stopped hr, goOn_stopped (t := s.withGroup g) hr, andThen_next]
    exact ignoresGroup_step.andThen hgo

/-- A run of cycles is its first part and then, unless that has stopped, the rest. -/
theorem cycles_add (m n : Nat) (s : State) :
    cycles (m + 1 + n) s = andThen (cycles (m + 1) s) (goOn n) := by
  induction m generalizing s with
  | zero =>
    rw [Nat.add_comm, cycles_succ, cycles_succ, andThen_assoc]
    congr 1
    funext t
    by_cases hr : cycleResult t = .running
    · rw [goOn_running hr (n := 0), cycles, andThen_next]
    · rw [goOn_stopped hr (n := 0), andThen_next]
  | succ m ih =>
    rw [show m + 1 + 1 + n = m + 1 + n + 1 by omega, cycles_succ, cycles_succ, andThen_assoc]
    congr 1
    funext t
    by_cases hr : cycleResult t = .running
    · rw [goOn_running hr, goOn_running hr, ih]
    · rw [goOn_stopped hr, goOn_stopped hr, andThen_next, goOn_stopped hr]

/-- A run that has stopped is the same however many more cycles are allowed. -/
theorem cycles_mono {m n : Nat} {s t : State} (hmn : m + 1 ≤ n) (h : cycles (m + 1) s = .next t)
    (hr : cycleResult t ≠ .running) : cycles n s = .next t := by
  obtain ⟨k, rfl⟩ := Nat.exists_eq_add_of_le hmn
  rw [cycles_add, h, andThen_next, goOn_stopped hr]

theorem cycles_cfg {n : Nat} {s t : State} (h : cycles n s = .next t) : t.cfg = s.cfg := by
  induction n generalizing s with
  | zero => cases h; rfl
  | succ n ih =>
    obtain ⟨u, hstep, hgo⟩ := andThen_eq_next.mp h
    have hcfg := (Sys2Proof.Proofs.stepNeverWritesInstructions s u hstep).2
    by_cases hr : cycleResult u = .running
    · rw [if_pos hr] at hgo
      exact (ih hgo).trans hcfg
    · rw [if_neg hr] at hgo
      cases hgo
      exact hcfg

/-! ### run_to_completion() -/

/-- One host step of `k + 1` cycles before a run that corresponds to `n` cycles. -/
theorem runToCompletion_succ_iff {fuel k n : Nat} {s t : State} (hk : groupSize s.cfg.stepGroup = k + 1)
    (hrest : ∀ u, cycles (k + 1) s = .next u → cycleResult u = .running →
      (runToCompletion fuel u = some (.next t) ↔ cycles n u = .next t ∧ cycleResult t ≠ .running)) :
    runToCompletion (fuel + 1) s = some (.next t) ↔
      cycles (k + 1 + n) s = .next t ∧ cycleResult t ≠ .running := by
  rw [runToCompletion, hostStep, hk, cycles_add]
  cases hc : cycles (k + 1) s with
  | next u =>
    rw [andThen_next]
    by_cases hr : cycleResult u = .running
    · simp only [if_pos hr, goOn_running hr]
      exact hrest u hc hr
    · simp only [if_neg hr, goOn_stopped hr, Option.some.injEq]
      refine ⟨fun h => ⟨h, ?_⟩, And.left⟩
      cases h
      exact hr
  | fault r => simp [andThen]
  | refused r => simp [andThen]

/-- Host steps that get to the end are as many groups of cycles that do. -/
theorem runToCompletion_eq_some_iff {fuel k : Nat} {s t : State} (hk : groupSize s.cfg.stepGroup = k + 1) :
    runToCompletion (fuel + 1) s = some (.next t) ↔
      cycles ((fuel + 1) * (k + 1)) s = .next t ∧ cycleResult t ≠ .running := by
  induction fuel generalizing s with
  | zero =>
    rw [Nat.zero_add, Nat.one_mul]
    refine runToCompletion_succ_iff (n := 0) hk fun u _ hr => ⟨nofun, ?_⟩
    rintro ⟨⟨⟩, hnot⟩
    exact absurd hr hnot
  | succ fuel ih =>
    rw [Nat.succ_mul, Nat.add_comm _ (k + 1)]
    exact runToCompletion_succ_iff hk fun u hc _ => ih (by rw [cycles_cfg hc, hk])

/-- Whatever STEP_GROUP is, run_to_completion() gets to an end exactly when single cycles do. -/
theorem exists_runToCompletion_iff (s t : State) :
    (∃ fuel, runToCompletion fuel s = some (.next t)) ↔
      ∃ n, cycles (n + 1) s = .next t ∧ cycleResult t ≠ .running := by
  obtain ⟨k, hk⟩ : ∃ k, groupSize s.cfg.stepGroup = k + 1 := by
    cases s.cfg.stepGroup
    · exact ⟨0, rfl⟩
    · exact ⟨4, rfl⟩
  constructor
  · rintro ⟨fuel, h⟩
    cases fuel with
    | zero => cases h
    | succ fuel =>
      rw [runToCompletion_eq_some_iff hk, Nat.succ_mul, ← Nat.add_assoc] at h
      exact ⟨_, h⟩
  · rintro ⟨n, h, hr⟩
    exact ⟨n + 1, (runToCompletion_eq_some_iff hk).mpr
      ⟨cycles_mono (Nat.le_mul_of_pos_right _ k.succ_pos) h hr, hr⟩⟩

/-- An end reached under one STEP_GROUP is reached under every other. -/
theorem exists_runToCompletion_withGroup {g : StepGroup} (g' : StepGroup) {s t : State}
    (h : ∃ fuel, runToCompletion fuel (s.withGroup g) = some (.next (t.withGroup g))) :
    ∃ fuel, runToCompletion fuel (s.withGroup g') = some (.next (t.withGroup g')) := by
  obtain ⟨n, hcycles, hr⟩ := (exists_runToCompletion_iff _ _).mp h
  have hother := ignoresGroup_cycles (n + 1) g' (s.withGroup g)
  rw [hcycles] at hother
  exact (exists_runToCompletion_iff _ _).mpr ⟨n, hother, hr⟩

end Sys2Proof.Machine

namespace Sys2Proof.Proofs

open Sys2Proof.Machine

/-- Settles O55: no cycle reads STEP_GROUP, and a run by groups ends exactly where the run cycle by cycle does. -/
theorem stepGroupDoesNotChangeTheEnd : Obligations.StepGroupDoesNotChangeTheEnd := by
  unfold Obligations.StepGroupDoesNotChangeTheEnd
  exact fun s t => ⟨exists_runToCompletion_withGroup (g := .five) (s := s) (t := t) .one,
    exists_runToCompletion_withGroup (g := .one) (s := s) (t := t) .five⟩

end Sys2Proof.Proofs
end

section
/-! The ALU instructions in EX (41_alu.md R110 to R114): checked addition against the exact sum, ANDI's immediate bit
by bit, and the end that the four share when they do not fault. -/

namespace Sys2Proof.Machine

/-! ### Checked addition (R110) -/

/-- The sign condition of R110 is the standard library's signed overflow. -/
theorem addOverflows_eq_saddOverflow (a b : Word) : addOverflows a b = a.saddOverflow b :=
  (BitVec.saddOverflow_eq a b).symm

theorem addOverflows_iff_msb {a b : Word} : addOverflows a b = true ↔ a.msb = b.msb ∧ (a + b).msb ≠ a.msb := by
  simp only [addOverflows, Bool.and_eq_true, beq_iff_eq, bne_iff_ne]

theorem addOverflows_iff_not_fits {a b : Word} :
    addOverflows a b = true ↔ ¬ fitsSigned32 (a.toInt + b.toInt) := by
  rw [addOverflows_eq_saddOverflow, BitVec.saddOverflow, Bool.or_eq_true, decide_eq_true_iff, decide_eq_true_iff]
  omega

/-- A sum that 32 bits hold is the one `add32` answers. -/
theorem add32_of_fits {a b : Word} (h : fitsSigned32 (a.toInt + b.toInt)) :
    add32 a b = some (a + b) ∧ (a + b).toInt = a.toInt + b.toInt := by
  have hno : ¬ addOverflows a b = true := fun ho => addOverflows_iff_not_fits.mp ho h
  refine ⟨add32_eq_some.mpr ⟨Bool.eq_false_iff.mpr hno, rfl⟩, BitVec.toInt_add_of_not_saddOverflow ?_⟩
  rwa [← addOverflows_eq_saddOverflow]

theorem word32_toInt_of_fitsSigned16 {n : Int} (h : fitsSigned16 n = true) : (word32 n).toInt = n := by
  rw [fitsSigned16_iff] at h
  exact word32_toInt (by omega)

/-! ### ANDI's immediate (R114, 30_encoding.md R66) -/

/-- Below bit 16 both settings of ANDI_EXT give the field. -/
theorem getLsbD_andiOperand_low (ext : AndiExt) (imm : Nat) {k : Nat} (hk : k < 16) :
    (andiOperand ext imm).getLsbD k = imm.testBit k := by
  have hk32 : k < 32 := by omega
  cases ext with
  | zero =>
    simp only [andiOperand, BitVec.getLsbD_setWidth, BitVec.getLsbD_ofNat, hk, hk32, decide_true, Bool.true_and]
  | sign =>
    simp only [andiOperand, BitVec.getLsbD_signExtend, BitVec.getLsbD_ofNat, hk, hk32, if_true, decide_true,
      Bool.true_and]

/-- From bit 16 on the setting decides: 0, or copies of the field's top bit. -/
theorem getLsbD_andiOperand_high (ext : AndiExt) (imm : Nat) {k : Nat} (hk : k < 32) (hhigh : 16 ≤ k) :
    (andiOperand ext imm).getLsbD k = (imm.testBit 15 && decide (ext = .sign)) := by
  have hk16 : ¬ k < 16 := by omega
  cases ext with
  | zero => simp [andiOperand, BitVec.getLsbD_ofNat, hk16]
  | sign =>
    have htop : (BitVec.ofNat 16 imm).msb = imm.testBit 15 := by
      rw [BitVec.msb_eq_getLsbD_last, BitVec.getLsbD_ofNat]
      rfl
    simp only [andiOperand, BitVec.getLsbD_signExtend, htop, hk, hk16, if_false, decide_true, Bool.true_and,
      Bool.and_true]

/-! ### The common end (40_pipeline.md R92) -/

theorem finishAlu_some {d : RegIdx} (hd : d ≠ 0) (v : Word) (s : State) :
    finishAlu d (some v) s = .next (writeExmem (some d) none (some v) s) :=
  if_neg hd

/-- An ALU instruction with a result leaves it in EX/MEM for its destination, beside an unspecified address. -/
theorem exec_alu_completes {i : Instr} {d : RegIdx} {r : Option Word} {v : Word} {s : State}
    (hexec : exec i s = finishAlu d r s) (hd : d ≠ 0) (hr : r = some v) :
    exec i s = .next { s with
      exmem := { valid := true, opcode := s.idex.opcode, registerTarget := some d,
                 memoryTarget := Config.freeAddress s.drawn, writeVal := v,
                 instructionWord := s.idex.instructionWord }
      drawn := s.drawn + 1 } := by
  rw [hexec, hr, finishAlu_some hd]
  rfl

end Sys2Proof.Machine

namespace Sys2Proof.Proofs

open Sys2Proof.Machine

/-- Settles O7: the sign condition of `add32` is that the exact sum does not fit. -/
theorem checkedAdditionIsExact : Obligations.CheckedAdditionIsExact := by
  unfold Obligations.CheckedAdditionIsExact
  intro a b
  refine ⟨fun hfits => ?_, fun hnot => ?_, add32_eq_none.trans addOverflows_iff_msb⟩
  · obtain ⟨hsum, hexact⟩ := add32_of_fits hfits
    exact ⟨a + b, hsum, hexact, BitVec.toNat_add a b⟩
  · exact add32_eq_none.mpr (addOverflows_iff_not_fits.mpr hnot)

/-- Settles O8, by the exactness of a sum that fits. -/
theorem addCompletesWithSum : Obligations.AddCompletesWithSum := by
  unfold Obligations.AddCompletesWithSum
  intro rd rs rt s hrd hfits
  obtain ⟨hsum, hexact⟩ := add32_of_fits hfits
  exact ⟨_, _, hexact, exec_alu_completes (i := .add rd rs rt) rfl hrd hsum⟩

/-- Settles O9: the immediate is read back from its Word, and the sum that fits is exact. -/
theorem addiCompletesWithSum : Obligations.AddiCompletesWithSum := by
  unfold Obligations.AddiCompletesWithSum
  intro rt rs imm s hrt hwf hfits
  have himm : (word32 imm).toInt = imm := word32_toInt_of_fitsSigned16 hwf
  obtain ⟨hsum, hexact⟩ := add32_of_fits (a := fwd s rs) (b := word32 imm) (by rwa [himm])
  exact ⟨_, _, by rw [hexact, himm], exec_alu_completes (i := .addi rt rs imm) rfl hrt hsum⟩

/-- Settles O10. -/
theorem andCompletesBitwise : Obligations.AndCompletesBitwise := by
  unfold Obligations.AndCompletesBitwise
  intro rd rs rt s hrd
  exact ⟨_, _, fun _ _ => BitVec.getLsbD_and, exec_alu_completes (i := .and rd rs rt) rfl hrd rfl⟩

/-- Settles O11, by the two halves of the widened immediate. -/
theorem andiCompletesUnderBothExtensions : Obligations.AndiCompletesUnderBothExtensions := by
  unfold Obligations.AndiCompletesUnderBothExtensions
  intro rt rs imm s hrt _
  refine ⟨_, fwd s rs &&& andiOperand s.cfg.andiExt imm, fun k hk => ?_, fun k hk hhigh => ?_,
    exec_alu_completes (i := .andi rt rs imm) rfl hrt rfl⟩
  · rw [BitVec.getLsbD_and, getLsbD_andiOperand_low _ _ hk]
  · rw [BitVec.getLsbD_and, getLsbD_andiOperand_high _ _ hk hhigh]

end Sys2Proof.Proofs
end

section
/-! LW and SW (42_loadstore.md R120 to R122): the checks of the effective address, read on the exact sum; what EX
answers in each case; and the one cell that MEM, and so a step, touches. -/

namespace Sys2Proof.Machine

/-! ### The effective address (R120) -/

/-- A base and a 16-bit displacement whose exact sum 32 bits hold. -/
theorem add32_word32_of_fits {b : Word} {n : Int} (hn : fitsSigned16 n = true)
    (hfits : fitsSigned32 (b.toInt + n)) :
    add32 b (word32 n) = some (b + word32 n) ∧ (b + word32 n).toInt = b.toInt + n := by
  have hword := word32_toInt_of_fitsSigned16 hn
  have h := add32_of_fits (a := b) (b := word32 n) (by rwa [hword])
  rwa [hword] at h

theorem effectiveAddress_of_add32 {s : State} {rs : RegIdx} {off : Int} {a : Word}
    (h : add32 (fwd s rs) (word32 off) = some a) :
    effectiveAddress s rs off =
      if isAligned a then if inDataMemory a then .ok a else .error .addressOutOfBounds
      else .error .unalignedAddress := by
  rw [effectiveAddress, h]

section
variable {s : State} {rs : RegIdx} {off : Int}

theorem effectiveAddress_eq_ok (hoff : fitsSigned16 off = true) (hlow : 0 ≤ (fwd s rs).toInt + off)
    (hhigh : (fwd s rs).toInt + off < 500) (hmod : ((fwd s rs).toInt + off) % 4 = 0) :
    ∃ a : Word, a.toInt = (fwd s rs).toInt + off ∧ effectiveAddress s rs off = .ok a := by
  obtain ⟨hsum, hexact⟩ := add32_word32_of_fits (b := fwd s rs) hoff (by omega)
  refine ⟨_, hexact, ?_⟩
  rw [effectiveAddress_of_add32 hsum, if_pos ((isAligned_iff_toInt _).mpr (by rwa [hexact])),
    if_pos ((inDataMemory_iff _).mpr (by rw [hexact]; exact ⟨hlow, hhigh⟩))]

theorem effectiveAddress_unaligned (hoff : fitsSigned16 off = true)
    (hfits : fitsSigned32 ((fwd s rs).toInt + off)) (hmod : ((fwd s rs).toInt + off) % 4 ≠ 0) :
    effectiveAddress s rs off = .error .unalignedAddress := by
  obtain ⟨hsum, hexact⟩ := add32_word32_of_fits hoff hfits
  rw [effectiveAddress_of_add32 hsum, if_neg (by rwa [isAligned_iff_toInt, hexact])]

theorem effectiveAddress_outOfBounds (hoff : fitsSigned16 off = true)
    (hfits : fitsSigned32 ((fwd s rs).toInt + off)) (hmod : ((fwd s rs).toInt + off) % 4 = 0)
    (hout : (fwd s rs).toInt + off < 0 ∨ 500 ≤ (fwd s rs).toInt + off) :
    effectiveAddress s rs off = .error .addressOutOfBounds := by
  obtain ⟨hsum, hexact⟩ := add32_word32_of_fits hoff hfits
  rw [effectiveAddress_of_add32 hsum, if_pos ((isAligned_iff_toInt _).mpr (by rwa [hexact])),
    if_neg (by rw [inDataMemory_iff, hexact]; omega)]

end

/-! ### EX of LW and SW (R121, R122) -/

section
variable {s : State} {rt rs : RegIdx} {off : Int}

theorem exec_lw_zero : exec (.lw 0 off rs) s = .next (raiseInEx .registerZeroWrite s) := rfl

theorem exec_lw_error {k : FaultKind} (hrt : rt ≠ 0) (h : effectiveAddress s rs off = .error k) :
    exec (.lw rt off rs) s = .next (raiseInEx k s) := by
  rw [exec, execLw, if_neg hrt, h]

theorem exec_lw_ok {a : Word} (hrt : rt ≠ 0) (h : effectiveAddress s rs off = .ok a) :
    exec (.lw rt off rs) s = .next (writeExmem (some rt) (some a) none s) := by
  rw [exec, execLw, if_neg hrt, h]

theorem exec_sw_error {k : FaultKind} (h : effectiveAddress s rs off = .error k) :
    exec (.sw rt off rs) s = .next (raiseInEx k s) := by
  rw [exec, execSw, h]

theorem exec_sw_ok {a : Word} (h : effectiveAddress s rs off = .ok a) :
    exec (.sw rt off rs) s = .next (writeExmem none (some a) (some (fwd s rt)) s) := by
  rw [exec, execSw, h]

/-- A LW that does not raise has written EX/MEM, with a free value, and nothing else. -/
theorem exec_lw_next_ok {t : State} (h : exec (.lw rt off rs) s = .next t) (ht : t.status = .ok) :
    ∃ a, t = writeExmem (some rt) (some a) none s := by
  by_cases hrt : rt = 0
  · subst hrt
    rw [exec_lw_zero] at h
    cases h
    cases ht
  · cases haddr : effectiveAddress s rs off with
    | error k =>
      rw [exec_lw_error hrt haddr] at h
      cases h
      cases ht
    | ok a =>
      rw [exec_lw_ok hrt haddr] at h
      exact ⟨a, (Host.Outcome.next.inj h).symm⟩

end

/-! ### MEM and the two cycles from EX to the register file (40_pipeline.md R93, R97) -/

/-- Data memory after MEM, cell by cell. -/
theorem memAfter_read (s : State) (a : Nat) :
    (memAfter s).read a =
      if s.exmem.opcode = 43#6 ∧ a = cellIndex s.exmem.memoryTarget then s.exmem.writeVal
      else s.dmem.read a := by
  by_cases hstore : s.exmem.opcode = 43#6
  · simp only [(mem_of_store hstore).2, Memory.read_write, hstore, true_and]
  · rw [memAfter, if_neg hstore, if_neg fun h => hstore h.1]

/-- Past MEM no stage writes data memory. -/
theorem step_dmem {s t : State} {w : Window} (hs : s.status = .ok) (hw : s.window = some w)
    (h : step s = .next t) : t.dmem = if w.has 4 then memAfter s else s.dmem := by
  rw [step_window hs hw] at h
  rw [(runWindow_keptFromExOn hs h).dmem, afterMem_dmem]

/-- The value MEM passes on is in its destination after the next cycle, which may fault. -/
theorem memValue_lands {s t u : State} {w : Window} {r : RegIdx} {v : Word} (hs : s.status = .ok)
    (hw : s.window = some w) (hl : w.legal) (h4 : w.has 4) (htarget : memTarget s = some r) (hr : r ≠ 0)
    (hvalue : memValue s = some v) (hstep : step s = .next t) (ht : t.status = .ok)
    (hstep' : step t = .next u) : u.x[r.val] = v := by
  obtain ⟨_, -, hadv⟩ := step_advances hs hw hl hstep ht
  obtain ⟨w', hw', h5⟩ := hadv.has_succ (by decide) h4
  obtain ⟨-, -, -, hpassed, hval⟩ := afterMem_memwb w s h4
  have hmemwb := step_memwb hs hw hstep
  rw [Sys2Proof.Proofs.stepWritesOnlyTheWbRegister t u w' r ht hw' hstep', hmemwb,
    if_pos ⟨h5, hpassed.trans htarget, hr⟩]
  exact hval v hvalue

end Sys2Proof.Machine

namespace Sys2Proof.Proofs

open Sys2Proof.Machine

/-- Settles O12: an address in range passes all three checks. -/
theorem lwCompletesWithAddress : Obligations.LwCompletesWithAddress := by
  unfold Obligations.LwCompletesWithAddress
  intro rt rs off s hrt hwf hlow hhigh hmod
  obtain ⟨a, hexact, haddr⟩ := effectiveAddress_eq_ok hwf hlow hhigh hmod
  exact ⟨a, Config.freeWriteVal s.drawn, hexact, exec_lw_ok hrt haddr⟩

/-- Settles O13, by the same checks; the source register is read whatever it is. -/
theorem swCompletesWithAddressAndData : Obligations.SwCompletesWithAddressAndData := by
  unfold Obligations.SwCompletesWithAddressAndData
  intro rt rs off s hwf hlow hhigh hmod
  obtain ⟨a, hexact, haddr⟩ := effectiveAddress_eq_ok hwf hlow hhigh hmod
  exact ⟨a, hexact, exec_sw_ok haddr⟩

/-- Settles O19, by the first check that fails. -/
theorem badDataAddressTraps : Obligations.BadDataAddressTraps := by
  unfold Obligations.BadDataAddressTraps
  intro s d rs rt n hd hn hfits
  refine ⟨fun hmod => ?_, fun hmod hout => ?_⟩
  · have haddr := effectiveAddress_unaligned hn hfits hmod
    exact ⟨exec_lw_error hd haddr, exec_sw_error haddr⟩
  · have haddr := effectiveAddress_outOfBounds hn hfits hmod hout
    exact ⟨exec_lw_error hd haddr, exec_sw_error haddr⟩

/-- Settles O43: MEM passes on the cell of a load with its destination. -/
theorem loadedCellLandsTwoCyclesLater : Obligations.LoadedCellLandsTwoCyclesLater := by
  unfold Obligations.LoadedCellLandsTwoCyclesLater
  intro s t u w r hs hw hl h4 hload hdest hr hstep ht hstep'
  obtain ⟨htarget, hvalue, -⟩ := mem_of_load hload
  exact memValue_lands hs hw hl h4 (htarget.trans hdest) hr hvalue hstep ht hstep'

/-- Settles O44: however the cycle ends, data memory is as MEM left it. -/
theorem stepStoresOnlyWhatMemHolds : Obligations.StepStoresOnlyWhatMemHolds := by
  unfold Obligations.StepStoresOnlyWhatMemHolds
  intro s t w hs hw hstep a
  rw [step_dmem hs hw hstep]
  by_cases h4 : w.has 4
  · rw [if_pos h4, memAfter_read]
    exact if_congr ⟨fun h => ⟨h4, h⟩, And.right⟩ rfl rfl
  · rw [if_neg h4, if_neg fun h => h4 h.1]

/-- Settles O45: EX leaves a checked address in EX/MEM, and MEM stores the data there. -/
theorem swStoresItsDataAtItsAddress : Obligations.SwStoresItsDataAtItsAddress := by
  unfold Obligations.SwStoresItsDataAtItsAddress
  intro s t rt rs off a hop haddr hexec
  obtain rfl := Host.Outcome.next.inj ((exec_sw_ok haddr).symm.trans hexec)
  obtain ⟨htarget, hdmem⟩ := mem_of_store (s := writeExmem none (some a) (some (fwd s rt)) s) hop
  refine ⟨_, memStage_eq _ fun _ => (effectiveAddress_ok haddr).2, rfl, rfl, hop, htarget, rfl, fun b => ?_⟩
  rw [writeMemwb_dmem, hdmem]
  exact Memory.read_write ..

/-- Settles O28: a LW that does not raise names its destination in EX/MEM, beside the free value. -/
theorem loadUseReadsFreeValue : Obligations.LoadUseReadsFreeValue := by
  unfold Obligations.LoadUseReadsFreeValue
  intro s t rt rs off hexec ht
  obtain ⟨a, rfl⟩ := exec_lw_next_ok hexec ht
  refine ⟨?_, rfl⟩
  rw [fwd_eq]
  exact if_pos ⟨rfl, rfl⟩

end Sys2Proof.Proofs
end

section
/-! The control transfers (43_control.md R130 to R133): their targets as numbers, what EX answers in each case, and
the delay slot. -/

namespace Sys2Proof.Machine

/-! ### J's target and its limit (R132, 30_encoding.md R67) -/

theorem jumpTarget_toNat {idx : Nat} (h : fitsUnsigned26 idx = true) (pc : Word) :
    (jumpTarget pc idx).toNat = pc.toNat / 2 ^ 28 * 2 ^ 28 + 4 * idx := by
  have hidx : idx < 67108864 := fitsUnsigned26_iff.mp h
  have hpc := pc.isLt
  rw [jumpTarget, BitVec.toNat_append, BitVec.toNat_append, ← Nat.shiftLeft_add_eq_or_of_lt (BitVec.isLt _),
    ← Nat.shiftLeft_add_eq_or_of_lt (BitVec.isLt _)]
  simp only [BitVec.extractLsb'_toNat, BitVec.toNat_ofNat, Nat.shiftRight_eq_div_pow, Nat.shiftLeft_eq]
  omega

theorem jumpLimit_eq (l : JLimit) : jumpLimit l = if l = .fix then 800 else 200 := by
  cases l <;> rfl

/-! ### EX of BEQ, J and JR -/

section
variable {s : State} {rs rt : RegIdx} {imm : Int} {idx : Nat}

theorem exec_beq_notTaken (h : fwd s rs ≠ fwd s rt) :
    exec (.beq rs rt imm) s = .next (writeExmem none none none s) := if_neg h

theorem exec_beq_taken (heq : fwd s rs = fwd s rt) (hlow : 4 ≤ branchTarget s.pc imm)
    (hhigh : branchTarget s.pc imm < 800) :
    exec (.beq rs rt imm) s = .next (transferTo (word32 (branchTarget s.pc imm)) s) := by
  rw [exec, execBeq, if_pos heq, if_neg (by rw [slotCount]; omega)]

theorem exec_beq_outOfBounds (heq : fwd s rs = fwd s rt)
    (hout : branchTarget s.pc imm < 4 ∨ 800 ≤ branchTarget s.pc imm) :
    exec (.beq rs rt imm) s = .next (raiseInEx .addressOutOfBounds s) := by
  rw [exec, execBeq, if_pos heq, if_pos (by rw [slotCount]; omega)]

theorem exec_j_completes (h : (jumpTarget s.pc idx).toNat < jumpLimit s.cfg.jLimit) :
    exec (.j idx) s = .next (transferTo (jumpTarget s.pc idx) s) := if_neg (Nat.not_le.mpr h)

theorem exec_j_outOfBounds (h : jumpLimit s.cfg.jLimit ≤ (jumpTarget s.pc idx).toNat) :
    exec (.j idx) s = .next (raiseInEx .addressOutOfBounds s) := if_pos h

theorem exec_jr_completes (h : isAligned (fwd s rs) = true) :
    exec (.jr rs) s = .next (transferTo (fwd s rs) s) := if_pos h

theorem exec_jr_unaligned (h : ¬ isAligned (fwd s rs) = true) :
    exec (.jr rs) s = .next (raiseInEx .unalignedAddress s) := if_neg h

end

end Sys2Proof.Machine

namespace Sys2Proof.Proofs

open Sys2Proof.Machine

/-- Settles O14: a target in [4, 800) is a Word's value, and with different operands no target is looked at. -/
theorem beqCompletesTakenAndNot : Obligations.BeqCompletesTakenAndNot := by
  unfold Obligations.BeqCompletesTakenAndNot
  intro rs rt imm s
  refine ⟨fun heq hlow hhigh => ?_, fun hne => ?_⟩
  · have hexact : (word32 (branchTarget s.pc imm)).toInt = s.pc.toInt + 4 * imm :=
      word32_toInt (by rw [branchTarget]; omega)
    exact ⟨_, _, _, hexact, exec_beq_taken heq hlow hhigh⟩
  · exact ⟨_, _, exec_beq_notTaken hne⟩

/-- Settles O15: the target the hardware assembles is the number that the limit is compared with. -/
theorem jCompletesBelowLimit : Obligations.JCompletesBelowLimit := by
  unfold Obligations.JCompletesBelowLimit
  intro idx s hwf hlt
  have hexact := jumpTarget_toNat hwf s.pc
  rw [← hexact, ← jumpLimit_eq] at hlt
  exact ⟨_, _, _, hexact, exec_j_completes hlt⟩

/-- Settles O20: on either side of the range the check comes before any write. -/
theorem badTransferTargetTraps : Obligations.BadTransferTargetTraps := by
  unfold Obligations.BadTransferTargetTraps
  intro s rs rt imm idx hwf
  refine ⟨exec_beq_outOfBounds, fun hle => ?_⟩
  rw [← jumpTarget_toNat hwf, ← jumpLimit_eq] at hle
  exact exec_j_outOfBounds hle

/-- Settles O38: ID copies the word behind EX before IF fetches at the pc EX left, and the look-ahead four further on
is still in the store. -/
theorem transferFetchesTargetAfterDelaySlot : Obligations.TransferFetchesTargetAfterDelaySlot := by
  unfold Obligations.TransferFetchesTargetAfterDelaySlot
  intro s s1 s2 w hs hw hlo hhi hbefore hex hok hmod hlt
  obtain ⟨-, rfl⟩ := beforeEx_next hs hbefore
  have hkept := afterMem_kept w s
  obtain ⟨hifid, -, -⟩ := (exStage_exEffect hex).keeps
  have hword : s2.ifid.instructionWord = s.ifid.instructionWord := by rw [hifid, hkept.ifid]
  have hslot : s2.imem.read (slotIndex s2.pc) = s.imem.read (s2.pc.toNat / 4) := by
    rw [slotIndex_eq (by omega), (exStage_keptFromExOn hex).imem, hkept.imem]
  have h2 : w.has 2 := ⟨by omega, by omega⟩
  have h3 : w.has 3 := ⟨by omega, hhi⟩
  have hstep := step_eq_afterEx hs hw hbefore ((runStage_run (hkept.status.trans hs) h3).trans hex)
  have hid : afterId w s2 = writeIdex s2.ifid.instructionWord s2 := if_pos h2
  have hb : inInstructionStore s2.pc = true := (inInstructionStore_iff_toNat _).mpr (by omega)
  have hpc : (afterIf (afterId w s2)).pc.toNat = s2.pc.toNat + 4 := by
    rw [hid]
    exact afterIf_pc hb
  have hfetch := hstep.trans (afterEx_fetched hok hlo (by omega) ((isAligned_iff_toNat _).mpr hmod) hb
    ((inInstructionStore_iff_toNat _).mpr (by omega)))
  rw [hid] at hfetch hpc
  exact ⟨_, hfetch, hok, rfl, hword, hslot, hpc⟩

/-- Settles O16: the alignment of the forwarded register is the only check. -/
theorem jrCompletesExactlyWhenAligned : Obligations.JrCompletesExactlyWhenAligned := by
  unfold Obligations.JrCompletesExactlyWhenAligned
  intro rs s
  rw [ne_eq, ← isAligned_iff_toNat]
  exact ⟨fun h => ⟨_, _, exec_jr_completes h⟩, exec_jr_unaligned⟩

end Sys2Proof.Proofs
end

section
/-! The faults of EX and IF (60_exceptions.md R144 to R148): which instructions write register 0, the overflow of the
checked sums, the words that decode to nothing, and the fetch outside the store. -/

namespace Sys2Proof.Machine

/-! ### Overflow (R146) -/

theorem finishAlu_none {d : RegIdx} (hd : d ≠ 0) (s : State) :
    finishAlu d none s = .next (raiseInEx .arithmeticOverflow s) :=
  if_neg hd

theorem add32_of_not_fits {a b : Word} (h : ¬ fitsSigned32 (a.toInt + b.toInt)) : add32 a b = none :=
  add32_eq_none.mpr (addOverflows_iff_not_fits.mpr h)

/-- An ALU instruction without a result raises, once its destination has passed its check (R151). -/
theorem exec_alu_overflows {i : Instr} {d : RegIdx} {r : Option Word} {s : State}
    (hexec : exec i s = finishAlu d r s) (hd : d ≠ 0) (hr : r = none) :
    exec i s = .next (raiseInEx .arithmeticOverflow s) := by
  rw [hexec, hr, finishAlu_none hd]

theorem effectiveAddress_overflow {s : State} {rs : RegIdx} {off : Int}
    (h : add32 (fwd s rs) (word32 off) = none) : effectiveAddress s rs off = .error .arithmeticOverflow := by
  rw [effectiveAddress, h]

/-! ### Destinations (R145) -/

/-- The register an instruction names as its destination (41_alu.md, 42_loadstore.md). -/
def destination : Instr → Option RegIdx
  | .add rd _ _ => some rd
  | .addi rt _ _ => some rt
  | .and rd _ _ => some rd
  | .andi rt _ _ => some rt
  | .lw rt _ _ => some rt
  | .sw _ _ _ => none
  | .beq _ _ _ => none
  | .j _ => none
  | .jr _ => none

theorem destination_eq_some_zero_iff {i : Instr} :
    destination i = some 0 ↔
      (∃ rs rt, i = .add 0 rs rt) ∨ (∃ rs imm, i = .addi 0 rs imm) ∨ (∃ rs rt, i = .and 0 rs rt) ∨
      (∃ rs imm, i = .andi 0 rs imm) ∨ (∃ off rs, i = .lw 0 off rs) := by
  cases i <;> simp [destination]

theorem exec_zeroDestination {i : Instr} (h : destination i = some 0) (s : State) :
    exec i s = .next (raiseInEx .registerZeroWrite s) := by
  -- the handlers test the destination before anything else (R151), so every case computes to the raise
  rcases destination_eq_some_zero_iff.mp h with
    ⟨_, _, rfl⟩ | ⟨_, _, rfl⟩ | ⟨_, _, rfl⟩ | ⟨_, _, rfl⟩ | ⟨_, _, rfl⟩ <;> rfl

/-- The state is not one that `RegisterZeroWrite` has led to. -/
def NoZeroWrite (t : State) : Prop := ∀ info, t.status ≠ .faulted .registerZeroWrite info

theorem noZeroWrite_of_ok {t : State} (h : t.status = .ok) : NoZeroWrite t := by
  intro info
  rw [h]
  exact Status.noConfusion

theorem noZeroWrite_raiseInEx {k : FaultKind} (h : k ≠ .registerZeroWrite) (s : State) :
    NoZeroWrite (raiseInEx k s) :=
  fun _ he => h (Status.faulted.inj he).1

/-- The address checks raise other kinds (42_loadstore.md R120). -/
theorem effectiveAddress_error_ne {s : State} {rs : RegIdx} {off : Int} {k : FaultKind}
    (h : effectiveAddress s rs off = .error k) : k ≠ .registerZeroWrite := by
  rintro rfl
  unfold effectiveAddress at h
  split at h
  · cases h
  · split_ifs at h <;> cases h

theorem finishAlu_noZeroWrite {d : RegIdx} (hd : d ≠ 0) (r : Option Word) {s : State} (hs : s.status = .ok) :
    ∃ t, finishAlu d r s = .next t ∧ NoZeroWrite t := by
  cases r with
  | none => exact ⟨_, finishAlu_none hd s, noZeroWrite_raiseInEx (by decide) s⟩
  | some v => exact ⟨_, finishAlu_some hd v s, noZeroWrite_of_ok hs⟩

/-- Without register 0 as destination an instruction completes or raises another kind. -/
theorem exec_noZeroWrite {i : Instr} (h : destination i ≠ some 0) {s : State} (hs : s.status = .ok) :
    ∃ t, exec i s = .next t ∧ NoZeroWrite t := by
  have hd : ∀ {d : RegIdx}, some d ≠ some 0 → d ≠ 0 := fun hne e => hne (congrArg some e)
  cases i with
  | add rd rs rt => exact finishAlu_noZeroWrite (hd h) (add32 (fwd s rs) (fwd s rt)) hs
  | addi rt rs imm => exact finishAlu_noZeroWrite (hd h) (add32 (fwd s rs) (word32 imm)) hs
  | and rd rs rt => exact finishAlu_noZeroWrite (hd h) (some (fwd s rs &&& fwd s rt)) hs
  | andi rt rs imm =>
    exact finishAlu_noZeroWrite (hd h) (some (fwd s rs &&& andiOperand s.cfg.andiExt imm)) hs
  | lw rt off rs =>
    cases haddr : effectiveAddress s rs off with
    | error k =>
      exact ⟨_, exec_lw_error (hd h) haddr, noZeroWrite_raiseInEx (effectiveAddress_error_ne haddr) s⟩
    | ok a => exact ⟨_, exec_lw_ok (hd h) haddr, noZeroWrite_of_ok hs⟩
  | sw rt off rs =>
    cases haddr : effectiveAddress s rs off with
    | error k => exact ⟨_, exec_sw_error haddr, noZeroWrite_raiseInEx (effectiveAddress_error_ne haddr) s⟩
    | ok a => exact ⟨_, exec_sw_ok haddr, noZeroWrite_of_ok hs⟩
  | beq rs rt imm =>
    by_cases heq : fwd s rs = fwd s rt
    · by_cases hout : branchTarget s.pc imm < 4 ∨ 800 ≤ branchTarget s.pc imm
      · exact ⟨_, exec_beq_outOfBounds heq hout, noZeroWrite_raiseInEx (by decide) s⟩
      · exact ⟨_, exec_beq_taken heq (by omega) (by omega), noZeroWrite_of_ok hs⟩
    · exact ⟨_, exec_beq_notTaken heq, noZeroWrite_of_ok hs⟩
  | j idx =>
    by_cases hlim : jumpLimit s.cfg.jLimit ≤ (jumpTarget s.pc idx).toNat
    · exact ⟨_, exec_j_outOfBounds hlim, noZeroWrite_raiseInEx (by decide) s⟩
    · exact ⟨_, exec_j_completes (Nat.not_le.mp hlim), noZeroWrite_of_ok hs⟩
  | jr rs =>
    by_cases ha : isAligned (fwd s rs) = true
    · exact ⟨_, exec_jr_completes ha, noZeroWrite_of_ok hs⟩
    · exact ⟨_, exec_jr_unaligned ha, noZeroWrite_raiseInEx (by decide) s⟩

/-! ### Words that decode to nothing (R144) -/

theorem exStage_undecoded {s : State} (h : decodeWith s.idex.opcode s.idex.instructionWord = none) :
    exStage s = .next (raiseInEx .unsupportedOperation s) := by
  rw [exStage, h]

/-! ### A fetch outside the store (R148) -/

/-- When IF raises, the rest of the cycle after EX is ID alone (R153). -/
theorem afterEx_noFetch {w : Window} {u : State} (hu : u.status = .ok) (h1 : w.has 1)
    (ha : isAligned u.pc = true) (hb : ¬ inInstructionStore u.pc = true) :
    afterEx w u = .next (raise .addressOutOfBounds u.pc (afterId w u)) := by
  obtain ⟨-, hpc, -, -, -, -, -, -, hstatus, -⟩ := afterId_kept w u
  rw [← hpc] at ha hb ⊢
  unfold afterEx
  rw [runStage_id w u hu, andThen_next, runStage_run (hstatus.trans hu) h1, ifStage_outOfBounds ha hb,
    andThen_next]
  exact schedule_faulted Status.noConfusion

end Sys2Proof.Machine

namespace Sys2Proof.Proofs

open Sys2Proof.Machine

/-- Settles O17: with destination 0 the check comes first, and otherwise no check raises that kind. -/
theorem zeroDestinationAlwaysTraps : Obligations.ZeroDestinationAlwaysTraps := by
  unfold Obligations.ZeroDestinationAlwaysTraps
  intro i s hs
  rw [← destination_eq_some_zero_iff]
  refine ⟨fun h => exec_zeroDestination h s, fun hraise => ?_⟩
  by_contra hne
  obtain ⟨t, ht, hno⟩ := exec_noZeroWrite hne hs
  obtain rfl := Host.Outcome.next.inj (ht.symm.trans hraise)
  exact hno _ rfl

/-- Settles O18: an exact sum that does not fit is the overflow of `add32`, for both sums. -/
theorem overflowTraps : Obligations.OverflowTraps := by
  unfold Obligations.OverflowTraps
  intro s d rs rt n hd hn
  refine ⟨fun hnot => ?_, fun hnot => ?_⟩
  · exact exec_alu_overflows (i := .add d rs rt) rfl hd (add32_of_not_fits hnot)
  · have hsum : add32 (fwd s rs) (word32 n) = none :=
      add32_of_not_fits (by rwa [word32_toInt_of_fitsSigned16 hn])
    have haddr := effectiveAddress_overflow hsum
    exact ⟨exec_alu_overflows (i := .addi d rs n) rfl hd hsum, exec_lw_error hd haddr, exec_sw_error haddr⟩

/-- Settles O30: outside the nine selectors the dispatch raises, and after a raise nothing runs. -/
theorem unrecognizedWordTrapsInEx : Obligations.UnrecognizedWordTrapsInEx := by
  unfold Obligations.UnrecognizedWordTrapsInEx
  intro s s1 w hs hw h3 hop hother hbefore
  obtain ⟨-, rfl⟩ := beforeEx_next hs hbefore
  have hkept := afterMem_kept w s
  have hex : exStage (afterMem w s) = .next (raiseInEx .unsupportedOperation (afterMem w s)) :=
    exStage_undecoded (by rw [hkept.idex, hop]; exact decodeWith_eq_none_iff.mpr hother)
  have hslot := (runStage_run (hkept.status.trans hs) h3).trans hex
  rw [step_eq_afterEx hs hw hbefore hslot, afterEx_faulted Status.noConfusion, raiseInEx, raise, hkept.idex]

/-- Settles O40: IF raises at the pc EX left, in the state ID left. -/
theorem fetchOutsideTheStoreFaults : Obligations.FetchOutsideTheStoreFaults := by
  unfold Obligations.FetchOutsideTheStoreFaults
  intro s s1 s2 s3 w hs hw hlo hhi hbefore hex hid hok hmod hge
  obtain rfl : afterId w s2 = s3 := Host.Outcome.next.inj ((runStage_id w s2 hok).symm.trans hid)
  have hout : ¬ inInstructionStore s2.pc = true := by rw [inInstructionStore_iff_toNat]; omega
  rw [step_eq_afterEx hs hw hbefore hex]
  exact afterEx_noFetch hok ⟨hlo.le, hhi⟩ ((isAligned_iff_toNat _).mpr hmod) hout

end Sys2Proof.Proofs
end

section
/-! Every step keeps the legal states (70_reset_and_hazards.md R187): the invariant in three parts, by which stages
write what they speak of, and each part kept by the stages that write it. -/

namespace Sys2Proof.Machine

/-! ### The invariant in three parts -/

/-- The part of the invariant that speaks of what WB and MEM alone write: the registers, MEM/WB and the memories
(R187 (a), (d), (e)). -/
structure State.StoredLegal (s : State) : Prop where
  zeroRegister : s.x[0] = 0
  memwbTarget  : s.memwb.registerTarget ≠ some 0
  dmemWf       : s.dmem.wf
  dmemCells    : ∀ c ∈ s.dmem, c.1 < dataCells ∧ c.1 % 4 = 0
  imemWf       : s.imem.wf
  imemSlots    : s.imem.within slotCount

/-- The part that speaks of what EX and the stages after it in the cycle write: pc, the window, ID/EX and EX/MEM
(R187 (b), (c), (d), 40_pipeline.md R90, 42_loadstore.md R120). -/
structure State.FlowLegal (s : State) : Prop where
  pcAligned    : isAligned s.pc = true
  windowLegal  : ∀ w, s.window = some w → w.legal
  exmemTarget  : s.exmem.registerTarget ≠ some 0
  idexOpcode   : s.idex.valid = true → s.idex.opcode = opcodeField s.idex.instructionWord
  exmemAddress : s.exmem.valid = true → s.exmem.isAccess → legalDataAddress s.exmem.memoryTarget = true

/-- Every stage of the window `w` finds at `s` what it reads (R187 (g), (h)). -/
structure State.Feeds (s : State) (w : Window) : Prop where
  ifid      : w.has 2 → s.ifid.valid = true
  idex      : w.has 3 → s.idex.valid = true
  exmem     : w.has 4 → s.exmem.valid = true
  memwb     : w.has 5 → s.memwb.valid = true
  fetchable : w.lo = 1 → inInstructionStore s.pc = true ∧ s.imem.read (slotIndex s.pc) ≠ blankCell

theorem State.inv_iff_parts (s : State) :
    s.Inv ↔ s.StoredLegal ∧ s.FlowLegal ∧ (s.status = .ok → ∀ w, s.window = some w → s.Feeds w) := by
  constructor
  · intro h
    exact ⟨⟨h.zeroRegister, h.memwbTarget, h.dmemWf, h.dmemCells, h.imemWf, h.imemSlots⟩,
      ⟨h.pcAligned, h.windowLegal, h.exmemTarget, h.idexOpcode, h.exmemAddress⟩,
      fun hs w hw => ⟨h.ifidValid hs w hw, h.idexValid hs w hw, h.exmemValid hs w hw, h.memwbValid hs w hw,
        h.fetchable hs w hw⟩⟩
  · rintro ⟨stored, flow, feeds⟩
    exact
      { zeroRegister := stored.zeroRegister, pcAligned := flow.pcAligned, windowLegal := flow.windowLegal,
        exmemTarget := flow.exmemTarget, memwbTarget := stored.memwbTarget, dmemWf := stored.dmemWf,
        dmemCells := stored.dmemCells, imemWf := stored.imemWf, imemSlots := stored.imemSlots,
        ifidValid := fun hs w hw => (feeds hs w hw).ifid, idexValid := fun hs w hw => (feeds hs w hw).idex,
        exmemValid := fun hs w hw => (feeds hs w hw).exmem, memwbValid := fun hs w hw => (feeds hs w hw).memwb,
        idexOpcode := flow.idexOpcode, exmemAddress := flow.exmemAddress,
        fetchable := fun hs w hw => (feeds hs w hw).fetchable }

/-- With no window nothing has to be fed. -/
theorem State.StoredLegal.inv_of_empty {s : State} (stored : s.StoredLegal) (flow : s.FlowLegal)
    (hw : s.window = none) : s.Inv := by
  refine s.inv_iff_parts.mpr ⟨stored, flow, fun _ w hw' => ?_⟩
  cases hw.symm.trans hw'

/-! ### What WB and MEM write -/

theorem cellIndex_of_legal {a : Word} (h : legalDataAddress a = true) :
    cellIndex a < dataCells ∧ cellIndex a % 4 = 0 := by
  obtain ⟨ha, hb⟩ := Bool.and_eq_true_iff.mp h
  rw [isAligned_iff_toInt] at ha
  rw [inDataMemory_iff] at hb
  unfold cellIndex dataCells
  omega

/-- What MEM leaves in data memory is in canonical form and in the cells a program can name (R187 (e)). -/
theorem storedLegal_memAfter {s : State} (h : s.StoredLegal)
    (haccess : s.exmem.isAccess → legalDataAddress s.exmem.memoryTarget = true) :
    (memAfter s).wf ∧ ∀ c ∈ memAfter s, c.1 < dataCells ∧ c.1 % 4 = 0 := by
  by_cases hstore : s.exmem.opcode = 43#6
  · rw [(mem_of_store hstore).2]
    refine ⟨Memory.wf_write h.dmemWf _ _, fun c hc => ?_⟩
    rcases Memory.mem_write hc with ⟨rfl, -⟩ | ⟨hold, -⟩
    · exact cellIndex_of_legal (haccess (.inr hstore))
    · exact h.dmemCells c hold
  · rw [memAfter, if_neg hstore]
    exact ⟨h.dmemWf, h.dmemCells⟩

theorem memTarget_ne_zero {s : State} (h : s.exmem.registerTarget ≠ some 0) : memTarget s ≠ some 0 := by
  unfold memTarget
  split
  · exact nofun
  · exact h

theorem storedLegal_afterMem {s : State} (h : s.StoredLegal) (hexmem : s.exmem.registerTarget ≠ some 0)
    {w : Window} (haccess : w.has 4 → s.exmem.isAccess → legalDataAddress s.exmem.memoryTarget = true) :
    (afterMem w s).StoredLegal where
  zeroRegister := (afterMem_x w s 0).trans ((if_neg fun hzero => hzero.2.2 rfl).trans h.zeroRegister)
  memwbTarget := by
    by_cases h4 : w.has 4
    · obtain ⟨-, -, -, htarget, -⟩ := afterMem_memwb w s h4
      rw [htarget]
      exact memTarget_ne_zero hexmem
    · rw [afterMem_memwb_skip w s h4]
      exact h.memwbTarget
  dmemWf := by
    rw [afterMem_dmem]
    split
    case isTrue h4 => exact (storedLegal_memAfter h (haccess h4)).1
    case isFalse => exact h.dmemWf
  dmemCells := by
    rw [afterMem_dmem]
    split
    case isTrue h4 => exact (storedLegal_memAfter h (haccess h4)).2
    case isFalse => exact h.dmemCells
  imemWf := (afterMem_kept w s).imem ▸ h.imemWf
  imemSlots := (afterMem_kept w s).imem ▸ h.imemSlots

theorem KeptFromExOn.storedLegal {s t : State} (k : KeptFromExOn s t) (h : s.StoredLegal) : t.StoredLegal where
  zeroRegister := by simpa only [k.x] using h.zeroRegister
  memwbTarget := k.memwb ▸ h.memwbTarget
  dmemWf := k.dmem ▸ h.dmemWf
  dmemCells := k.dmem ▸ h.dmemCells
  imemWf := k.imem ▸ h.imemWf
  imemSlots := k.imem ▸ h.imemSlots

/-! ### What EX and the rest of the cycle write -/

theorem KeptBeforeEx.flowLegal {s t : State} (k : KeptBeforeEx s t) (h : s.FlowLegal) : t.FlowLegal where
  pcAligned := k.pc ▸ h.pcAligned
  windowLegal := k.window ▸ h.windowLegal
  exmemTarget := k.exmem ▸ h.exmemTarget
  idexOpcode := k.idex ▸ h.idexOpcode
  exmemAddress := k.exmem ▸ h.exmemAddress

/-- A completed load or store has left a checked address, and no handler names register 0 as destination. -/
theorem ExEffect.flowLegal {s t : State} (e : ExEffect s t) (h : s.FlowLegal) : t.FlowLegal := by
  have hpc := e.pc_aligned h.pcAligned
  cases e with
  | raises k => exact ⟨hpc, h.windowLegal, h.exmemTarget, h.idexOpcode, h.exmemAddress⟩
  | writes i d a v p decoded done =>
    refine ⟨hpc, h.windowLegal, done.destination, h.idexOpcode, fun _ haccess => ?_⟩
    obtain ⟨b, rfl, hb⟩ := done.address (isLoadStore_of_decodeWith decoded haccess)
    exact hb

theorem flowLegal_afterId {s : State} (h : s.FlowLegal) (w : Window) : (afterId w s).FlowLegal := by
  unfold afterId
  split
  · exact ⟨h.pcAligned, h.windowLegal, h.exmemTarget, fun _ => rfl, h.exmemAddress⟩
  · exact h

theorem flowLegal_afterIf {s : State} (h : s.FlowLegal) (hb : inInstructionStore s.pc = true) :
    (afterIf s).FlowLegal :=
  ⟨afterIf_aligned h.pcAligned hb, h.windowLegal, h.exmemTarget, h.idexOpcode, h.exmemAddress⟩

theorem flowLegal_raise {s : State} (h : s.FlowLegal) (k : FaultKind) (info : Word) :
    (raise k info s).FlowLegal :=
  ⟨h.pcAligned, h.windowLegal, h.exmemTarget, h.idexOpcode, h.exmemAddress⟩

theorem flowLegal_withWindow {s : State} (h : s.FlowLegal) {o : Option Window}
    (ho : ∀ w, o = some w → w.legal) : State.FlowLegal { s with window := o } :=
  ⟨h.pcAligned, ho, h.exmemTarget, h.idexOpcode, h.exmemAddress⟩

theorem flowLegal_seed {s : State} (h : s.FlowLegal) : (seed s).FlowLegal where
  pcAligned := h.pcAligned
  windowLegal := by
    rintro w ⟨⟩
    decide
  exmemTarget := nofun
  idexOpcode := nofun
  exmemAddress := nofun

theorem nextWindow_eq_some_iff {lo hi : Nat} {w : Window} :
    nextWindow lo hi = some w ↔ lo ≤ min (hi + 1) 5 ∧ w = { lo := lo, hi := min (hi + 1) 5 } := by
  by_cases h : min (hi + 1) 5 < lo
  · rw [nextWindow, if_pos h]
    exact ⟨nofun, fun hle => absurd hle.1 (by omega)⟩
  · rw [nextWindow, if_neg h, Option.some.injEq, eq_comm]
    exact (and_iff_right (by omega)).symm

theorem nextWindow_legal {lo hi : Nat} (hlo : 1 ≤ lo) (w : Window) (h : nextWindow lo hi = some w) : w.legal := by
  obtain ⟨hle, rfl⟩ := nextWindow_eq_some_iff.mp h
  exact ⟨hlo, hle, Nat.min_le_right ..⟩

theorem CycleEnd.flowLegal {w : Window} {u t : State} (e : CycleEnd w u t) (h : u.FlowLegal) : t.FlowLegal := by
  obtain ⟨-, hpc, -⟩ := afterId_kept w u
  have fetched : inInstructionStore u.pc = true → (afterIf (afterId w u)).FlowLegal :=
    fun hb => flowLegal_afterIf (flowLegal_afterId h w) (hpc ▸ hb)
  cases e with
  | aborted => exact h
  | drained => exact flowLegal_withWindow (flowLegal_afterId h w) (nextWindow_legal (Nat.le_add_left ..))
  | noFetch => exact flowLegal_raise (flowLegal_afterId h w) ..
  | noLookAhead _ _ _ hb _ => exact flowLegal_raise (fetched hb) ..
  | fetched _ _ _ hb _ => exact flowLegal_withWindow (fetched hb) (nextWindow_legal (by split <;> decide))

/-! ### What the next window finds -/

theorem CycleEnd.ifid_valid {w : Window} {u t : State} (e : CycleEnd w u t) (ht : t.status = .ok)
    (hlo : w.lo = 1) : t.ifid.valid = true := by
  cases e with
  | aborted hu => exact absurd ht hu
  | drained _ hl => exact absurd hlo hl
  | noFetch => cases ht
  | noLookAhead => cases ht
  | fetched => rfl

theorem Advances.bounds {w w' : Window} {u t : State} (h : Advances w u t) (hw' : t.window = some w') :
    w'.lo = nextLo w t ∧ w'.hi = min (w.hi + 1) 5 := by
  obtain ⟨-, rfl⟩ := nextWindow_eq_some_iff.mp (h.window.symm.trans hw')
  exact ⟨rfl, rfl⟩

/-- A stage in the next window takes over from the one before it, which was in the window (40_pipeline.md R96). -/
theorem Advances.has_pred {w w' : Window} {u t : State} (h : Advances w u t) (hw' : t.window = some w') {n : Nat}
    (hn : 1 ≤ n) (h' : w'.has (n + 1)) : w.has n := by
  obtain ⟨hlo, hhi⟩ := h.bounds hw'
  obtain ⟨hlo', hhi'⟩ := h'
  by_cases h1 : w.lo = 1
  · exact ⟨by omega, by omega⟩
  · have hdrain := nextLo_drain t h1
    exact ⟨by omega, by omega⟩

/-- IF is in the next window only when the look-ahead has found a word that is not zero (40_pipeline.md R84). -/
theorem Advances.lookAhead_ne_zero {w w' : Window} {u t : State} (h : Advances w u t) (hl : w.legal)
    (hw' : t.window = some w') (h1 : w'.lo = 1) : w.lo = 1 ∧ t.imem.read (slotIndex t.pc) ≠ blankCell := by
  obtain ⟨hbound, -⟩ := h.bounds hw'
  obtain ⟨hpos, -, -⟩ := hl
  have hlo : w.lo = 1 := by
    by_contra hne
    have hdrain := nextLo_drain t hne
    omega
  refine ⟨hlo, fun hzero => ?_⟩
  rw [nextLo_lookAhead t hlo, if_pos (show _ = (0 : Word) from hzero)] at hbound
  omega

/-- Each stage of the next window reads a latch that the cycle has written (R187 (g)). -/
theorem step_feeds {s t : State} {w w' : Window} (hs : s.status = .ok) (hw : s.window = some w) (hl : w.legal)
    (hstep : step s = .next t) (ht : t.status = .ok) (hw' : t.window = some w') : t.Feeds w' := by
  obtain ⟨hid, hex, hmem, -⟩ := Proofs.eachInstructionAdvancesOneStage s t w hs hw hl hstep ht
  obtain ⟨u, -, hadv⟩ := step_advances hs hw hl hstep ht
  refine ⟨fun h2 => ?_, fun h3 => (hid (hadv.has_pred hw' (by decide) h3)).2,
    fun h4 => (hex (hadv.has_pred hw' (by decide) h4)).2, fun h5 => (hmem (hadv.has_pred hw' (by decide) h5)).2,
    fun h1 => ?_⟩
  · have hlo : w.lo = 1 := le_antisymm (hadv.has_pred hw' le_rfl h2).1 hl.1
    rw [step_window hs hw] at hstep
    obtain ⟨-, u', -, -, hafter⟩ := runWindow_next hs hstep
    exact (afterEx_next hl hafter).ifid_valid ht hlo
  · obtain ⟨hlo, hne⟩ := hadv.lookAhead_ne_zero hl hw' h1
    exact ⟨hadv.fetchable hlo, hne⟩

/-! ### A cycle -/

/-- A cycle with a window keeps legality, whether or not the window is fed. -/
theorem step_inv_of_window {s t : State} {w : Window} (stored : s.StoredLegal) (flow : s.FlowLegal)
    (hs : s.status = .ok) (hw : s.window = some w) (hstep : step s = .next t) : t.Inv := by
  have hl := flow.windowLegal w hw
  have hrun : runWindow w s = .next t := (step_window hs hw).symm.trans hstep
  obtain ⟨hbefore, u, -, heffect, hafter⟩ := runWindow_next hs hrun
  have hstored := storedLegal_afterMem stored flow.exmemTarget (beforeEx_next hs hbefore).1
  have hmem : (afterMem w s).FlowLegal := (afterMem_kept w s).flowLegal flow
  have hex : u.FlowLegal := by
    split at heffect
    · exact heffect.flowLegal hmem
    · exact heffect ▸ hmem
  exact t.inv_iff_parts.mpr ⟨(runWindow_keptFromExOn hs hrun).storedLegal hstored,
    (afterEx_next hl hafter).flowLegal hex, fun ht w' => step_feeds hs hw hl hstep ht⟩

end Sys2Proof.Machine

namespace Sys2Proof.Proofs

open Sys2Proof.Machine

/-- Settles O49: what WB and MEM write, what EX and the later stages write, and what the next window finds are
legal one by one; a seeded cycle is that of the seeded state. -/
theorem stepKeepsLegality : Obligations.StepKeepsLegality := by
  unfold Obligations.StepKeepsLegality
  intro s t hinv hstep
  obtain ⟨stored, flow, -⟩ := s.inv_iff_parts.mp hinv
  rcases step_cases s with ⟨-, hidle⟩ | ⟨hs, w, hw, -⟩ | ⟨hs, -, -, hseed⟩
  · obtain rfl : s = t := Host.Outcome.next.inj (hidle.symm.trans hstep)
    exact hinv
  · exact step_inv_of_window stored flow hs hw hstep
  · have hstored : (seed s).StoredLegal := { stored with memwbTarget := nofun }
    have hrun : step (seed s) = .next t := (step_window (s := seed s) hs rfl).trans (hseed.symm.trans hstep)
    exact step_inv_of_window hstored (flowLegal_seed flow) hs rfl hrun

end Sys2Proof.Proofs
end

section
/-! How a run ends: the drain counts down to completion (70_reset_and_hazards.md R187 (i), 40_pipeline.md R87), and
the look-ahead past the last slot faults (R184). -/

namespace Sys2Proof.Machine

/-! ### Steps in a row -/

theorem run_succ_of_step {M : Host.Core} {s t : M.State} (h : M.step s = .next t) (n : Nat) :
    M.run (n + 1) s = M.run n t := by
  rw [Host.Core.run, h]

theorem core_run_one {s t : State} (h : step s = .next t) : Sys2Proof.core.run 1 s = .next t :=
  run_succ_of_step (M := Sys2Proof.core) h 0

theorem run_add_of_run {M : Host.Core} {m : Nat} {s t : M.State} (h : M.run m s = .next t) (n : Nat) :
    M.run (m + n) s = M.run n t := by
  induction m generalizing s with
  | zero =>
    cases h
    rw [Nat.zero_add]
  | succ m ih =>
    rw [Host.Core.run] at h
    split at h
    · next u hstep =>
      rw [Nat.succ_add, run_succ_of_step hstep]
      exact ih h
    · cases h
    · cases h

theorem cycleResult_ne_running_of_faulted {s : State} (h : s.status ≠ .ok) : cycleResult s ≠ .running := by
  unfold cycleResult
  split
  · exact nofun
  · next hok => exact absurd hok h

theorem cycleResult_ne_running_of_empty {s : State} (h : s.window = none) : cycleResult s ≠ .running := by
  unfold cycleResult
  split
  · exact nofun
  · rw [h]
    exact nofun

/-! ### The drain (40_pipeline.md R87) -/

/-- With `n` stages from lo to WB a draining run ends in `n` cycles: each shifts lo by one, or faults. -/
theorem drain_ends {n : Nat} {s : State} {w : Window} (hinv : s.Inv) (hs : s.status = .ok)
    (hw : s.window = some w) (hlo : 1 < w.lo) (hn : w.lo + n = 6) :
    ∃ t, Sys2Proof.core.run n s = .next t ∧ cycleResult t ≠ .running := by
  have hl := hinv.windowLegal w hw
  induction n generalizing s w with
  | zero =>
    obtain ⟨-, hle, hhi⟩ := hl
    omega
  | succ n ih =>
    obtain ⟨t, hstep⟩ := Proofs.legalStatesAlwaysStep s hinv
    have hinv' := Proofs.stepKeepsLegality s t hinv hstep
    rw [run_succ_of_step (M := Sys2Proof.core) hstep]
    by_cases ht : t.status = .ok
    · obtain ⟨-, hshift, hlast⟩ := Proofs.windowFollowsLookAhead s t w hs hw hl hstep ht
      by_cases h5 : w.lo = 5
      · obtain rfl : n = 0 := by omega
        exact ⟨t, rfl, cycleResult_ne_running_of_empty (hlast h5)⟩
      · have hw' := hshift hlo (by omega)
        exact ih hinv' ht hw' (Nat.lt_succ_of_lt hlo) (by simp only; omega) (hinv'.windowLegal _ hw')
    · exact ⟨t, run_of_step_eq_self (M := Sys2Proof.core) (step_faulted ht) n,
        cycleResult_ne_running_of_faulted ht⟩

/-! ### The look-ahead past the store (40_pipeline.md R84) -/

/-- ID and IF run, and the look-ahead raises, when pc leaves the store behind the fetched slot. -/
theorem afterEx_noLookAhead {w : Window} {u : State} (hu : u.status = .ok) (hlo : w.lo = 1) (hhi : 1 ≤ w.hi)
    (ha : isAligned u.pc = true) (hb : inInstructionStore u.pc = true)
    (hn : ¬ inInstructionStore (afterIf (afterId w u)).pc = true) :
    afterEx w u = .next (raise .addressOutOfBounds (afterIf (afterId w u)).pc (afterIf (afterId w u))) := by
  obtain ⟨-, hpc, -, -, -, -, -, -, hstatus, -⟩ := afterId_kept w u
  rw [← hpc] at ha hb
  unfold afterEx
  rw [runStage_id w u hu, andThen_next, runStage_run (hstatus.trans hu) ⟨hlo.le, hhi⟩, ifStage_word ha hb,
    andThen_next]
  exact schedule_outOfBounds (hstatus.trans hu) hlo (afterIf_aligned ha hb) hn

end Sys2Proof.Machine

namespace Sys2Proof.Proofs

open Sys2Proof.Machine

/-- Settles O37, by induction on the cycles left: legality is kept, so every one of them answers. -/
theorem drainEndsInSixMinusLo : Obligations.DrainEndsInSixMinusLo := by
  unfold Obligations.DrainEndsInSixMinusLo
  intro s w hinv hs hw hlo
  obtain ⟨-, hle, hhi⟩ := hinv.windowLegal w hw
  exact drain_ends hinv hs hw hlo (by omega)

/-- Settles O39: at pc 796 IF fetches slot 199, and the look-ahead then reads at pc 800. -/
theorem fetchingTheLastSlotFaults : Obligations.FetchingTheLastSlotFaults := by
  unfold Obligations.FetchingTheLastSlotFaults
  intro s s1 s2 w hs hw hlo hhi hbefore hex hok hpc
  obtain ⟨-, rfl⟩ := beforeEx_next hs hbefore
  obtain ⟨-, kpc, -, kimem, -, -, -, -, -, -⟩ := afterId_kept w s2
  have himem : s2.imem = s.imem :=
    (runStage_keptFromExOn exStage_keptFromExOn hex).imem.trans (afterMem_kept w s).imem
  have hnext : (afterIf (afterId w s2)).pc = 800 := by
    show word32 ((afterId w s2).pc.toInt + 4) = 800
    rw [kpc, hpc]
    decide
  have hslot : (afterIf (afterId w s2)).ifid.instructionWord = s.imem.read 199 := by
    rw [afterIf, writeIfid_ifid, freeLatch_instructionWord, kpc, kimem, himem, hpc]
    rfl
  have hend := afterEx_noLookAhead hok hlo hhi (by rw [hpc]; decide) (by rw [hpc]; decide)
    (by rw [hnext]; decide)
  exact ⟨_, (step_eq_afterEx hs hw hbefore hex).trans hend, hslot, hnext, by rw [raise_status, hnext]; rfl⟩

end Sys2Proof.Proofs
end

section
/-! `reset()` and `load` (70_reset_and_hazards.md R170 to R175): what reset leaves, when `load` answers what, and what
the slots hold after it. -/

namespace Sys2Proof.Machine

/-! ### Reset -/

/-- The reset state with the instruction store `m`. -/
def resetWith (m : Memory) : State := { State.reset with imem := m }

theorem storedLegal_resetWith {m : Memory} (hwf : m.wf) (hslots : m.within slotCount) :
    (resetWith m).StoredLegal where
  zeroRegister := show State.reset.x[0] = 0 by decide
  memwbTarget := nofun
  dmemWf := ⟨.nil, nofun⟩
  dmemCells := nofun
  imemWf := hwf
  imemSlots := hslots

theorem flowLegal_resetWith (m : Memory) : (resetWith m).FlowLegal where
  pcAligned := show isAligned pcReset = true by decide
  windowLegal := nofun
  exmemTarget := nofun
  idexOpcode := nofun
  exmemAddress := nofun

/-- The reset state with slots in canonical form is legal (R175). -/
theorem inv_resetWith {m : Memory} (hwf : m.wf) (hslots : m.within slotCount) : (resetWith m).Inv :=
  (storedLegal_resetWith hwf hslots).inv_of_empty (flowLegal_resetWith m) rfl

theorem map_read_nil (n : Nat) : (List.range n).map (Memory.read []) = List.replicate n blankCell := by
  rw [show Memory.read [] = fun _ => blankCell from rfl, List.map_const', List.length_range]

/-! ### The checks of load (R174) -/

theorem entryHasLength_iff {e : Option (List Char)} :
    entryHasLength e = true ↔ ∃ cs, e = some cs ∧ cs.length = 32 := by
  cases e <;> simp [entryHasLength]

theorem entryIsBits_iff {e : Option (List Char)} :
    entryIsBits e = true ↔ ∃ cs, e = some cs ∧ ∀ c ∈ cs, c = '0' ∨ c = '1' := by
  cases e <;> simp [entryIsBits]

theorem entryHasLength_and_entryIsBits_iff {e : Option (List Char)} :
    entryHasLength e = true ∧ entryIsBits e = true ↔
      ∃ cs, e = some cs ∧ cs.length = 32 ∧ ∀ c ∈ cs, c = '0' ∨ c = '1' := by
  cases e <;> simp [entryHasLength, entryIsBits]

/-- The program passes the checks of its lengths: it has 1 to 200 entries, all of them strings of 32 (R174). -/
def Shaped (p : ProgramText) : Prop := p.length ≠ 0 ∧ p.length ≤ 200 ∧ ∀ e ∈ p, entryHasLength e = true

theorem shaped_iff {p : ProgramText} :
    Shaped p ↔ p.length ≠ 0 ∧ p.length ≤ 200 ∧ ∀ e ∈ p, ∃ cs, e = some cs ∧ cs.length = 32 := by
  simp only [Shaped, entryHasLength_iff]

/-- Of a program that has passed the checks of its lengths every entry is present. -/
theorem Shaped.allBits_iff {p : ProgramText} (h : Shaped p) :
    (∀ e ∈ p, entryIsBits e = true) ↔ ∀ cs, some cs ∈ p → ∀ c ∈ cs, c = '0' ∨ c = '1' := by
  obtain ⟨-, -, hpresent⟩ := shaped_iff.mp h
  constructor
  · intro hbits cs hcs
    obtain ⟨_, ⟨⟩, hchars⟩ := entryIsBits_iff.mp (hbits _ hcs)
    exact hchars
  · intro hchars e he
    obtain ⟨cs, rfl, -⟩ := hpresent e he
    exact entryIsBits_iff.mpr ⟨cs, rfl, hchars cs he⟩

theorem checkProgram_of_not_shaped {p : ProgramText} (h : ¬ Shaped p) :
    checkProgram p = some .invalidProgram := by
  unfold checkProgram slotCount
  by_cases hcount : p.length = 0 ∨ 200 < p.length
  · exact if_pos hcount
  · have hlen : ¬ p.all entryHasLength = true :=
      fun hall => h ⟨by omega, by omega, List.all_eq_true.mp hall⟩
    rw [if_neg hcount, if_neg hlen]

theorem checkProgram_of_shaped {p : ProgramText} (h : Shaped p) :
    checkProgram p = if ∀ e ∈ p, entryIsBits e = true then none else some .invalidEncoding := by
  obtain ⟨hpos, hle, hlen⟩ := h
  unfold checkProgram slotCount
  rw [if_neg (by omega), if_pos (List.all_eq_true.mpr hlen)]
  exact if_congr List.all_eq_true rfl rfl

theorem checkProgram_eq_invalidProgram_iff {p : ProgramText} :
    checkProgram p = some .invalidProgram ↔ ¬ Shaped p := by
  by_cases h : Shaped p
  · rw [checkProgram_of_shaped h]
    split_ifs <;> simp [h]
  · simp [checkProgram_of_not_shaped h, h]

theorem checkProgram_eq_invalidEncoding_iff {p : ProgramText} :
    checkProgram p = some .invalidEncoding ↔ Shaped p ∧ ¬ ∀ e ∈ p, entryIsBits e = true := by
  by_cases h : Shaped p
  · rw [checkProgram_of_shaped h, ite_eq_right_iff]
    simp [h]
  · simp [checkProgram_of_not_shaped h, h]

theorem checkProgram_eq_none_iff {p : ProgramText} :
    checkProgram p = none ↔ Shaped p ∧ ∀ e ∈ p, entryIsBits e = true := by
  by_cases h : Shaped p
  · rw [checkProgram_of_shaped h, ite_eq_left_iff]
    simp [h]
  · simp [checkProgram_of_not_shaped h, h]

theorem load_eq_error_iff {p : ProgramText} {s : State} {e : LoadError} :
    load p s = .error e ↔ checkProgram p = some e := by
  unfold load
  cases checkProgram p <;> simp

theorem load_eq_ok_iff {p : ProgramText} {s t : State} :
    load p s = .ok t ↔
      checkProgram p = none ∧ t = { s with imem := storeSlots s.imem 0 (p.map entryWord) } := by
  unfold load
  cases checkProgram p <;> simp [eq_comm]

/-! ### The words of a program (00_scope.md R6) -/

/-- The bits read last are the low ones: without them the value is what was read before. -/
theorem bitsValue_shiftRight (acc : Nat) (cs : List Char) : bitsValue acc cs >>> cs.length = acc := by
  induction cs generalizing acc with
  | nil => rfl
  | cons c cs ih =>
    rw [bitsValue, List.length_cons, Nat.shiftRight_succ, ih]
    split <;> omega

theorem testBit_bitsValue {cs : List Char} {j : Nat} {c : Char} (h : cs[j]? = some c) (acc : Nat) :
    (bitsValue acc cs).testBit (cs.length - 1 - j) = decide (c = '1') := by
  induction cs generalizing acc j with
  | nil => cases h
  | cons d cs ih =>
    rw [bitsValue]
    cases j with
    | zero =>
      obtain rfl := Option.some.inj h
      have hhead := bitsValue_shiftRight (2 * acc + if d = '1' then 1 else 0) cs
      rw [show (d :: cs).length - 1 - 0 = cs.length + 0 by simp, ← Nat.testBit_shiftRight, hhead]
      by_cases hd : d = '1' <;> simp [hd]
    | succ j =>
      rw [show (d :: cs).length - 1 - (j + 1) = cs.length - 1 - j by simp only [List.length_cons]; omega]
      exact ih h _

/-- Character j of a string of 32 is bit 31 - j of its word. -/
theorem entryWord_getMsbD {cs : List Char} (hlen : cs.length = 32) {j : Nat} {c : Char} (h : cs[j]? = some c) :
    (entryWord (some cs)).getMsbD j = decide (c = '1') := by
  have hj : j < 32 := hlen ▸ (List.getElem?_eq_some_iff.mp h).1
  have hbit := testBit_bitsValue h 0
  rw [hlen] at hbit
  rw [entryWord, Option.getD_some, BitVec.getMsbD, BitVec.getLsbD_ofNat, hbit]
  simp [hj, show 31 - j < 32 by omega]

/-- Slot i of a loaded program is the word of its entry i. -/
theorem storeSlots_read_entry {p : ProgramText} {i : Nat} {e : Option (List Char)} (h : p[i]? = some e) (m : Memory) :
    (storeSlots m 0 (p.map entryWord)).read i = entryWord e := by
  obtain ⟨hi, rfl⟩ := List.getElem?_eq_some_iff.mp h
  simp [storeSlots_read, hi]

theorem storeSlots_read_past {p : ProgramText} {i : Nat} (h : p.length ≤ i) (m : Memory) :
    (storeSlots m 0 (p.map entryWord)).read i = m.read i := by
  rw [storeSlots_read, dif_neg]
  simp only [List.length_map]
  omega

end Sys2Proof.Machine

namespace Sys2Proof.Proofs

open Sys2Proof.Machine

/-- Settles O48: the reset state is the one with the empty program. -/
theorem resetIsLegal : Obligations.ResetIsLegal :=
  inv_resetWith (m := []) ⟨.nil, nofun⟩ nofun

/-- Settles O51: the slots of an accepted program are canonical and in the store. -/
theorem loadedResetIsLegal : Obligations.LoadedResetIsLegal := by
  unfold Obligations.LoadedResetIsLegal
  intro p s hload
  obtain ⟨hcheck, rfl⟩ := load_eq_ok_iff.mp hload
  obtain ⟨⟨-, hle, -⟩, -⟩ := checkProgram_eq_none_iff.mp hcheck
  exact inv_resetWith (storeSlots_wf (m := []) ⟨.nil, nofun⟩ _ _)
    (storeSlots_within (m := []) nofun (by rw [List.length_map, Nat.zero_add]; exact hle))

/-- Settles O52: reset lists no cell and no slot, and an unlisted one reads 0. -/
theorem resetZeroesEverything : Obligations.ResetZeroesEverything := by
  unfold Obligations.ResetZeroesEverything
  intro s
  refine ⟨rfl, rfl, map_read_nil 500, map_read_nil 200, fun l hl => ?_, rfl, rfl⟩
  simp only [List.mem_cons, List.not_mem_nil, or_false] at hl
  rcases hl with rfl | rfl | rfl | rfl <;> rfl

/-- Settles O53, by the reads after a run of slots is stored and the bits of an entry's word. -/
theorem loadStoresStringAtItsSlot : Obligations.LoadStoresStringAtItsSlot := by
  unfold Obligations.LoadStoresStringAtItsSlot
  intro p s t hload
  obtain ⟨hcheck, rfl⟩ := load_eq_ok_iff.mp hload
  obtain ⟨⟨-, -, hlength⟩, -⟩ := checkProgram_eq_none_iff.mp hcheck
  refine ⟨rfl, fun i cs hi j c hj => ?_, fun i hi => storeSlots_read_past hi _⟩
  obtain ⟨_, ⟨⟩, hlen⟩ := entryHasLength_iff.mp (hlength _ (List.mem_of_getElem? hi))
  rw [storeSlots_read_entry hi]
  exact entryWord_getMsbD hlen hj

/-- Settles O54, by the two groups of checks in their order: the lengths, then the characters. -/
theorem loadErrorsInListedOrder : Obligations.LoadErrorsInListedOrder := by
  unfold Obligations.LoadErrorsInListedOrder
  intro p s
  refine ⟨?_, ?_, ?_⟩
  · rw [load_eq_error_iff, checkProgram_eq_invalidProgram_iff, shaped_iff, not_and_or, not_and_or, not_not, not_le]
    simp only [not_forall, not_exists, not_and, exists_prop, ne_eq]
  · rw [load_eq_error_iff, checkProgram_eq_invalidEncoding_iff, ← and_assoc, ← and_assoc,
      and_assoc (a := p.length ≠ 0), ← shaped_iff]
    refine and_congr_right fun hshaped => ?_
    rw [hshaped.allBits_iff]
    simp only [not_forall, not_or, exists_prop, ne_eq]
  · simp only [load_eq_ok_iff, exists_and_left, exists_eq, and_true]
    rw [checkProgram_eq_none_iff]
    simp only [Shaped, ← entryHasLength_and_entryIsBits_iff, forall_and, and_assoc]

end Sys2Proof.Proofs
end

section
/-! The first cycles of a program of one word (40_pipeline.md R82, R88, R89): IF and ID carry it to EX, which is then
alone in the window. -/

namespace Sys2Proof.Machine

/-- The reset state with slots `m` after the cycle that has fetched `v`, ID next (40_pipeline.md R82, R88). -/
def fetchedOne (m : Memory) (v : Word) : State :=
  { writeIfid v (resetWith m) with pc := 4, window := some { lo := 2, hi := 2 } }

/-- The same after the cycle that has decoded `v`, EX next (40_pipeline.md R89). -/
def decodedOne (m : Memory) (v : Word) : State :=
  { writeIdex v (writeIfid v (resetWith m)) with pc := 4, window := some { lo := 3, hi := 3 } }

theorem afterIf_of_zero {s : State} (hp : s.pc = 0) :
    afterIf s = { writeIfid (s.imem.read 0) s with pc := 4 } := by
  rw [afterIf, hp, show word32 (BitVec.toInt 0 + 4) = 4 by decide, show slotIndex 0 = 0 by decide]

/-- The seeded cycle fetches slot 0, and with slot 1 blank it is the only one. -/
theorem step_resetWith {m : Memory} (h1 : m.read 1 = blankCell) :
    step (resetWith m) = .next (fetchedOne m (m.read 0)) := by
  have hid : afterId { lo := 1, hi := 1 } (seed (resetWith m)) = seed (resetWith m) := afterId_skip (by decide)
  have hpc : (afterIf (seed (resetWith m))).pc = 4 := afterIf_pc_of_zero rfl
  have hblank : (afterIf (seed (resetWith m))).imem.read (slotIndex 4) = 0 := h1
  have hend := afterEx_fetched (w := { lo := 1, hi := 1 }) (u := seed (resetWith m)) rfl rfl le_rfl
    (show isAligned pcReset = true by decide) (show inInstructionStore pcReset = true by decide)
    (by rw [hid, hpc]; decide)
  rw [hid, hpc, if_pos hblank, afterIf_of_zero (s := seed (resetWith m)) rfl] at hend
  exact (step_seed_eq (s := resetWith m) rfl rfl rfl).trans hend

/-- With ID alone in the window nothing of WB, MEM or EX runs. -/
theorem step_fetchedOne (m : Memory) (v : Word) : step (fetchedOne m v) = .next (decodedOne m v) := by
  have hbefore : beforeEx { lo := 2, hi := 2 } (fetchedOne m v) = .next (fetchedOne m v) :=
    beforeEx_eq _ _ rfl fun h4 => absurd h4 (by decide)
  rw [step_eq_afterEx (s := fetchedOne m v) rfl rfl hbefore (runStage_skip (by decide)),
    afterEx_drain rfl (by decide)]
  rfl

theorem run_two_resetWith {m : Memory} (h1 : m.read 1 = blankCell) :
    Sys2Proof.core.run 2 (resetWith m) = .next (decodedOne m (m.read 0)) :=
  (run_add_of_run (M := Sys2Proof.core) (core_run_one (step_resetWith h1)) 1).trans
    (core_run_one (step_fetchedOne m (m.read 0)))

theorem withFetchWord_reset (v : Word) :
    State.reset.withFetchWord 32 v.toNat = decodedOne (Memory.write [] 0 v) v := by
  have hword : BitVec.ofNat 32 (v.toNat % 2 ^ 32) = v := by
    rw [Nat.mod_eq_of_lt v.isLt, BitVec.ofNat_toNat, BitVec.setWidth_eq]
  unfold State.withFetchWord
  rw [hword]
  rfl

end Sys2Proof.Machine

namespace Sys2Proof.Proofs

open Sys2Proof.Machine

/-- Settles O57: slot 1 is blank behind a program of one word, so its two cycles are IF and ID of that word. -/
theorem placedWordIsALoadedProgram : Obligations.PlacedWordIsALoadedProgram := by
  unfold Obligations.PlacedWordIsALoadedProgram
  intro cs s hload
  obtain ⟨-, rfl⟩ := load_eq_ok_iff.mp hload
  have hread := Memory.read_write [] 0 (v := entryWord (some cs))
  refine ⟨(entryWord (some cs)).toNat, (hread 0).trans (by simp), ?_⟩
  rw [withFetchWord_reset]
  have hrun := run_two_resetWith (hread 1)
  rw [hread 0] at hrun
  exact hrun

/-- Settles O56: the two cycles of the word 0, which no instruction has, and then its EX. -/
theorem emptyProgramFaultsInThirdCycle : Obligations.EmptyProgramFaultsInThirdCycle := by
  unfold Obligations.EmptyProgramFaultsInThirdCycle
  have htwo : Sys2Proof.core.run 2 State.reset = .next (decodedOne [] 0) := run_two_resetWith (m := []) rfl
  have hbefore : beforeEx { lo := 3, hi := 3 } (decodedOne [] 0) = .next (decodedOne [] 0) :=
    beforeEx_eq _ _ rfl fun h4 => absurd h4 (by decide)
  have hthird := unrecognizedWordTrapsInEx (decodedOne [] 0) (decodedOne [] 0) { lo := 3, hi := 3 } rfl rfl
    (by decide) rfl (.inr (by decide)) hbefore
  exact ⟨_, (run_add_of_run (M := Sys2Proof.core) htwo 1).trans (core_run_one hthird), rfl, rfl, rfl⟩

end Sys2Proof.Proofs
end
